-- ==== Sys2Proof/Word.lean ====
section
/-! DEFINITION. The word types of the block (spec/00_scope.md R7, 10_state.md R21): every value it handles is unsigned. -/

namespace Sys2Proof

/-- A byte: an I2C payload byte, a request argument, a chip register (R7). -/
abbrev Byte := BitVec 8

/-- A 7-bit I2C device address (R22, R50). -/
abbrev I2cAddress := BitVec 7

end Sys2Proof
end

