-- ==== Sys2Proof/Config.lean ====
section
/-! DEFINITION. What is fixed when the block is constructed (spec/00_scope.md R6), and the values the spec
leaves open: they are opaque, so nothing can be proved about which value they are. -/

namespace Sys2Proof

/-- The transport's error payload `TErr`, "an opaque transport error" (R6, R181). No rule looks inside it; the
number only tells two errors apart (DESIGN CHOICE, log 6). -/
structure TErr where
  token : Nat
  deriving DecidableEq, Repr, Inhabited

/-- The parameters of R6 that a run of the block can depend on, other than `I2C_ADDR` (which is the register
`addr`, R22). -/
structure Params where
  /-- `POLL_LIMIT` -/
  pollLimit : Nat
  /-- `POLL_DELAY_US` -/
  pollDelayUs : Nat
  /-- `BUSY_TIMEOUT_STRICT` (R132) -/
  busyTimeoutStrict : Bool
  deriving DecidableEq, Repr

/-- How the environment answers the port action the controller is performing (R51, R52, R53). -/
inductive Completion where
  /-- `Ok`: a `MemRead` returns `b`; a `MemWrite` and a `Delay` complete and have no result. -/
  | ok (b : Byte)
  /-- `Err(e)` for a transaction; a delay cannot fail (R53, D16), so for it this is a completion too. -/
  | err (e : TErr)
  /-- Not completed in this step: the controller stays blocked (R51, R52, U15). -/
  | pending
  deriving DecidableEq, Repr, Inhabited

/-- The normative parameter values of R6. -/
def Params.normative : Params :=
  { pollLimit := 1000, pollDelayUs := 20, busyTimeoutStrict := false }

/-- `I2C_ADDR`: OPEN, a 7-bit constant of the construction with no value in the source (R6, D12, U17; log 7). -/
opaque Config.i2cAddr : I2cAddress

/-- FREE VALUE: how the environment answers the `n`-th port action after the listed completions are used up.
The chip's answers are free draws (R59, D22, U1 to U9) and may never come (U15; log 4). -/
opaque Config.completion : Nat → Completion

/-- FREE VALUE: the chip's "power-on defaults" configuration, with no value in the source (R41, N4). Only the
chip contract of Machine/Chip.lean names it. -/
opaque Config.chipPowerOnConfig : Byte

end Sys2Proof
end

