-- ==== Sys2Proof/Syntax.lean ====
section
/-! DEFINITION. The instructions of the block: one constructor per row of spec/opcode_table.json. The first
sixteen are the operation requests of 30_encoding.md R72, the last eight the I2C frames of R76 (the two layers
of R70). -/

namespace Sys2Proof

/-- Sixteen requests (R72) and eight frames (R76). Operands are those of R73 and R75. -/
inductive Instr where
  /-- R100 -/
  | deviceReset
  /-- R101; `c` is the 4-bit configuration value laid out as R38 -/
  | writeConfig (c : BitVec 4)
  /-- R103; `p` is a register-select code -/
  | setReadPointer (p : Byte)
  /-- R104 -/
  | regReadByte
  /-- R105 -/
  | readStatus
  /-- R106 -/
  | readDataRegister
  /-- R107; `n` is the argument field and `bytes` the payload `wbuf` -/
  | writeBytes (n : Byte) (bytes : List Byte)
  /-- R130 -/
  | busyWait
  /-- R141 -/
  | owReset
  /-- R142 -/
  | owReadBit
  /-- R143; `v` is the bit to write -/
  | owWriteBit (v : Bool)
  /-- R144 -/
  | owReadByte
  /-- R145 -/
  | owWriteByte (v : Byte)
  /-- R146; `d` is the direction to take on a tie -/
  | owTriplet (d : Bool)
  /-- R170 -/
  | searchAll
  /-- R171 -/
  | searchAlarm
  /-- F.DRST, Device Reset: `[0xF0]` -/
  | frameDrst
  /-- F.WCFG, Write Config: `[0xD2, b]` -/
  | frameWcfg (b : Byte)
  /-- F.1WRS, 1-Wire Reset: `[0xB4]` -/
  | frame1wrs
  /-- F.1WSB, 1-Wire Single Bit: `[0x87, b]` -/
  | frame1wsb (b : Byte)
  /-- F.1WRB, 1-Wire Read Byte: `[0x96]` -/
  | frame1wrb
  /-- F.1WWB, 1-Wire Write Byte: `[0xA5, v]` -/
  | frame1wwb (v : Byte)
  /-- F.1WT, Triplet: `[0x78, b]` -/
  | frame1wt (b : Byte)
  /-- F.SRP, Set Read Pointer: `[0xE1, p]` -/
  | frameSrp (p : Byte)
  deriving DecidableEq, Repr

/-- What a client puts on the request port (R71): the 12-bit word `req[11:0]`, and a byte list when one is given. -/
structure Request where
  word : BitVec 12
  wbuf : Option (List Byte)
  deriving DecidableEq, Repr

/-- The two encodings of R70: a request on the request port, or the byte list of one I2C frame. -/
inductive Encoding where
  | request (r : Request)
  | frame (bytes : List Byte)
  deriving DecidableEq, Repr

end Sys2Proof
end

