-- ==== Sys2Proof/WellFormed.lean ====
section
/-! DEFINITION. Which terms of `Instr` a request or a frame can spell (spec/30_encoding.md R73, R74). The checks
of R74 on reserved argument bits and on a payload given to the wrong operation have no term to refuse: the
decoder makes them. -/

namespace Sys2Proof

/-- `WRITE_BYTES` needs `n ≠ 0` and exactly `n` bytes (R74, D17); every other term is well formed. -/
def Instr.wellFormed : Instr → Bool
  | .deviceReset => true
  | .writeConfig _ => true
  | .setReadPointer _ => true
  | .regReadByte => true
  | .readStatus => true
  | .readDataRegister => true
  | .writeBytes n bytes => n != 0 && bytes.length == n.toNat
  | .busyWait => true
  | .owReset => true
  | .owReadBit => true
  | .owWriteBit _ => true
  | .owReadByte => true
  | .owWriteByte _ => true
  | .owTriplet _ => true
  | .searchAll => true
  | .searchAlarm => true
  | .frameDrst => true
  | .frameWcfg _ => true
  | .frame1wrs => true
  | .frame1wsb _ => true
  | .frame1wrb => true
  | .frame1wwb _ => true
  | .frame1wt _ => true
  | .frameSrp _ => true

end Sys2Proof
end

