-- ==== Sys2Proof/Decode.lean ====
section
/-! DEFINITION. The decoder of requests (spec/30_encoding.md R71 to R74), the decoder of I2C frames (R75, R76,
R80), the encoder of both, and the opcode table's numbering of them. -/

namespace Sys2Proof

/-- Why a request or a byte list spells no instruction. -/
inductive DecodeError where
  /-- `op` takes no argument and `arg ≠ 0x00` (R74) -/
  | argumentNotZero
  /-- `WRITE_CONFIG` with `arg[7:4] ≠ 0` (R74) -/
  | configArgument
  /-- `OW_WRITE_BIT` or `OW_TRIPLET` with `arg[7:1] ≠ 0` (R74) -/
  | bitArgument
  /-- `WRITE_BYTES` with `n = 0` (R74) -/
  | emptyWrite
  /-- `WRITE_BYTES` whose payload is not of length `n` (R74) -/
  | payloadLength
  /-- a payload given with an operation other than `WRITE_BYTES` (R74) -/
  | payloadGiven
  /-- a frame of no bytes -/
  | emptyFrame
  /-- a first byte that is no command of R76 -/
  | unknownCommand (b : Byte)
  /-- a two-byte command with no second byte (R80) -/
  | truncatedFrame (b : Byte)
  /-- bytes after the frame -/
  | trailingBytes
  deriving DecidableEq, Repr

/-- `op = req[11:8]` (R71). -/
def requestOp (r : Request) : BitVec 4 := r.word.extractLsb' 8 4

/-- `arg = req[7:0]` (R71). -/
def requestArg (r : Request) : Byte := r.word.extractLsb' 0 8

/-- The request word `{op, arg}` (R71). -/
def requestWord (op : BitVec 4) (arg : Byte) : BitVec 12 := op ++ arg

/-- `zext_8` of a configuration value (R7). -/
def zext8 (c : BitVec 4) : Byte := c.setWidth 8

/-- One bit as an argument byte: `{0b0000000, v}` (R143, R146). -/
def bitByte (v : Bool) : Byte := if v then 0x01 else 0x00

/-- An operation that takes no argument (R74). -/
def decodeNoArgument (i : Instr) (arg : Byte) : Except DecodeError Instr :=
  if arg = 0x00 then .ok i else .error .argumentNotZero

/-- `WRITE_CONFIG`: `c = arg[3:0]` and `arg[7:4] = 0` (R73, R74). -/
def decodeConfig (arg : Byte) : Except DecodeError Instr :=
  if arg.extractLsb' 4 4 = 0 then .ok (.writeConfig (arg.extractLsb' 0 4)) else .error .configArgument

/-- A one-bit argument, read as `arg[0] = 1`, with `arg[7:1] = 0` (R73, R74). -/
def decodeBit (f : Bool → Instr) (arg : Byte) : Except DecodeError Instr :=
  if arg.extractLsb' 1 7 = 0 then .ok (f (arg.getLsbD 0)) else .error .bitArgument

/-- `WRITE_BYTES`: `n = arg`, with a payload of `n` bytes, `n ≠ 0` (R73, R74). -/
def decodeWriteBytes (arg : Byte) (wbuf : Option (List Byte)) : Except DecodeError Instr :=
  if arg = 0x00 then .error .emptyWrite
  else match wbuf with
    | none => .error .payloadLength
    | some bytes => if bytes.length = arg.toNat then .ok (.writeBytes arg bytes) else .error .payloadLength

/-- R72's table, for the operations other than `WRITE_BYTES`; the last arm is `op = 0xF`, the one value left. -/
def decodeOperation (op : BitVec 4) (arg : Byte) : Except DecodeError Instr :=
  match op with
  | 0x0#4 => decodeNoArgument .deviceReset arg
  | 0x1#4 => decodeConfig arg
  | 0x2#4 => .ok (.setReadPointer arg)
  | 0x3#4 => decodeNoArgument .regReadByte arg
  | 0x4#4 => decodeNoArgument .readStatus arg
  | 0x5#4 => decodeNoArgument .readDataRegister arg
  | 0x6#4 => decodeWriteBytes arg none
  | 0x7#4 => decodeNoArgument .busyWait arg
  | 0x8#4 => decodeNoArgument .owReset arg
  | 0x9#4 => decodeNoArgument .owReadBit arg
  | 0xA#4 => decodeBit .owWriteBit arg
  | 0xB#4 => decodeNoArgument .owReadByte arg
  | 0xC#4 => .ok (.owWriteByte arg)
  | 0xD#4 => decodeBit .owTriplet arg
  | 0xE#4 => decodeNoArgument .searchAll arg
  | _ => decodeNoArgument .searchAlarm arg

/-- The request decoder: total, refusing the ill-formed requests of R74 by name. -/
def decodeRequest (r : Request) : Except DecodeError Instr :=
  if requestOp r = 0x6 then decodeWriteBytes (requestArg r) r.wbuf
  else if r.wbuf.isSome then .error .payloadGiven
  else decodeOperation (requestOp r) (requestArg r)

/-- A two-byte frame: the byte after the command is its payload (R75). -/
def decodeF2 (cmd : Byte) (f : Byte → Instr) : List Byte → Except DecodeError (Instr × List Byte)
  | [] => .error (.truncatedFrame cmd)
  | b :: rest => .ok (f b, rest)

/-- The frame decoder: byte 0 decides the command and the length (R76, R80); the bytes after the frame are
given back. -/
def decodeFrame : List Byte → Except DecodeError (Instr × List Byte)
  | [] => .error .emptyFrame
  | cmd :: rest =>
    match cmd with
    | 0xF0#8 => .ok (.frameDrst, rest)
    | 0xD2#8 => decodeF2 cmd .frameWcfg rest
    | 0xB4#8 => .ok (.frame1wrs, rest)
    | 0x87#8 => decodeF2 cmd .frame1wsb rest
    | 0x96#8 => .ok (.frame1wrb, rest)
    | 0xA5#8 => decodeF2 cmd .frame1wwb rest
    | 0x78#8 => decodeF2 cmd .frame1wt rest
    | 0xE1#8 => decodeF2 cmd .frameSrp rest
    | _ => .error (.unknownCommand cmd)

/-- A byte list that is exactly one frame: what one `MemWrite` carries (R75). -/
def decodeWholeFrame (bytes : List Byte) : Except DecodeError Instr :=
  match decodeFrame bytes with
  | .error e => .error e
  | .ok (i, []) => .ok i
  | .ok (_, _ :: _) => .error .trailingBytes

/-- The decoder of both layers (R70). -/
def decode : Encoding → Except DecodeError Instr
  | .request r => decodeRequest r
  | .frame bytes => decodeWholeFrame bytes

/-- A request with no payload. -/
def plainRequest (op : BitVec 4) (arg : Byte) : Encoding :=
  .request { word := requestWord op arg, wbuf := none }

/-- The encoder, from R72's and R76's tables. -/
def encode : Instr → Encoding
  | .deviceReset => plainRequest 0x0 0x00
  | .writeConfig c => plainRequest 0x1 (zext8 c)
  | .setReadPointer p => plainRequest 0x2 p
  | .regReadByte => plainRequest 0x3 0x00
  | .readStatus => plainRequest 0x4 0x00
  | .readDataRegister => plainRequest 0x5 0x00
  | .writeBytes n bytes => .request { word := requestWord 0x6 n, wbuf := some bytes }
  | .busyWait => plainRequest 0x7 0x00
  | .owReset => plainRequest 0x8 0x00
  | .owReadBit => plainRequest 0x9 0x00
  | .owWriteBit v => plainRequest 0xA (bitByte v)
  | .owReadByte => plainRequest 0xB 0x00
  | .owWriteByte v => plainRequest 0xC v
  | .owTriplet d => plainRequest 0xD (bitByte d)
  | .searchAll => plainRequest 0xE 0x00
  | .searchAlarm => plainRequest 0xF 0x00
  | .frameDrst => .frame [0xF0]
  | .frameWcfg b => .frame [0xD2, b]
  | .frame1wrs => .frame [0xB4]
  | .frame1wsb b => .frame [0x87, b]
  | .frame1wrb => .frame [0x96]
  | .frame1wwb v => .frame [0xA5, v]
  | .frame1wt b => .frame [0x78, b]
  | .frameSrp p => .frame [0xE1, p]

/-- The payload of a table word: opcode_table.json gives `wbuf` no bits, so it is zeros, as many as `n` asks
(log 11). -/
def tablePayload (word : BitVec 12) : Option (List Byte) :=
  if word.extractLsb' 8 4 = (0x6 : BitVec 4) then some (List.replicate (word.extractLsb' 0 8).toNat 0x00)
  else none

/-- What a word of opcode_table.json spells: an 8-bit word is an `F1` frame; a wider word below `0x1000` is a
12-bit request; any other 16-bit word is an `F2` frame, its byte 0 in the high bits (R75; log 11). -/
def tableEncoding (nbits w : Nat) : Encoding :=
  if nbits ≤ 8 then .frame [BitVec.ofNat 8 w]
  else if w < 0x1000 then
    .request { word := BitVec.ofNat 12 w, wbuf := tablePayload (BitVec.ofNat 12 w) }
  else .frame [BitVec.ofNat 8 (w / 256), BitVec.ofNat 8 w]

/-- The instruction the decoder reads from a word of opcode_table.json, numbered as that table numbers it. -/
def decodeTableWord (nbits w : Nat) : Option Instr :=
  match decode (tableEncoding nbits w) with
  | .ok i => some i
  | .error _ => none

end Sys2Proof
end

