-- ==== Sys2Proof/Machine/State.lean ====
section
/-! DEFINITION. The state of the controller (spec/10_state.md R21, R42), with what stands on its four ports, and
the reasons a step can stop. A register that holds `⊥` (R8, R24, R25) is `none`. -/

namespace Sys2Proof.Machine

/-- `x[phase]` (R23). -/
inductive Phase where
  | idle
  | run
  deriving DecidableEq, Repr

/-- Where a busy-wait runs: as the request `BUSY_WAIT`, or in line as a primitive's pre-wait or post-wait
(R130, R140). -/
inductive WaitSite where
  | direct
  | pre
  | post
  deriving DecidableEq, Repr

/-- The labels of R130's listing that name a port action. `L3`, `L5` and the counter updates name none: they
are evaluated when the next label is chosen (log 3). -/
inductive WaitLabel where
  /-- `L1`, and the pointer write of the first `L2` -/
  | l1
  /-- the pointer write of a later `L2` -/
  | select
  /-- the status read of `L2` -/
  | read
  /-- `L4` -/
  | delay
  /-- the return of `L3` or `L6`, in the direct request -/
  | ret
  /-- the `raise BusyTimeout` of `L6` -/
  | timeout
  deriving DecidableEq, Repr

/-- `x[step]`: the next port action of the request in progress (R23). `l1` to `l5` are labels of the
register-I/O and enumeration listings, the rest those of R130 and R140. -/
inductive Label where
  | l1
  | l2
  | l3
  /-- `L4` of R101: the write of the best-effort reset (R102) -/
  | l4Write
  /-- `L4` of R101: the read of the best-effort reset (R102) -/
  | l4Read
  | l5
  | wait (site : WaitSite) (w : WaitLabel)
  | cmd
  /-- the pointer write of `FETCH` (R144, R106) -/
  | fetchSelect
  /-- the read of `FETCH` (R144, R106) -/
  | fetchRead
  | int
  deriving DecidableEq, Repr

/-- The closed error taxonomy (R180). Raising one is a next state, not a fault (R182). -/
inductive OpError where
  | deviceReset
  | i2cCommunication (e : TErr)
  | writeConfig
  | shortDetected
  | busyTimeout
  deriving DecidableEq, Repr

/-- `kind` of a response (R82). -/
inductive ResponseKind where
  | ok
  | err
  deriving DecidableEq, Repr

/-- A response `{kind, code[2:0], value[7:0], terr}` (R82). -/
structure Response where
  kind : ResponseKind
  code : BitVec 3
  value : Byte
  terr : Option TErr
  deriving DecidableEq, Repr

/-- How a completed `MemRead` ended (R52). -/
inductive ReadResult where
  | byte (b : Byte)
  | err (e : TErr)
  deriving DecidableEq, Repr

/-- A completed port action (R9, R11). -/
inductive PortAction where
  /-- `MemWrite(a, n, bytes)`, `n` the length of `bytes`; `err` is the transport error, if it ended in one -/
  | memWrite (a : I2cAddress) (bytes : List Byte) (err : Option TErr)
  /-- `MemRead(a, 1)` -/
  | memRead (a : I2cAddress) (result : ReadResult)
  /-- `Delay(us)` -/
  | delay (us : Nat)
  /-- the response of a request -/
  | respond (r : Response)
  deriving DecidableEq, Repr

/-- The registers that can hold `⊥` and are read by a step (R24, R25). -/
inductive Register where
  | step
  | op
  | arg
  | wbuf
  | polls
  | stat
  | data
  deriving DecidableEq, Repr

/-- Why the machine stops with a fault. -/
inductive Fault where
  /-- A step reads a register that holds `⊥`: "A model that reads a register holding ⊥ must fault" (R24). Raised
  by the fetch of a request in progress, by an interpretation and by the busy-wait. Safe: the machine stops, and
  no run from reset meets it. -/
  | readBottom (r : Register)
  /-- An action is asked for that the listing in progress does not name; the controller "never performs an action
  no listing names" (R23). Raised by an instruction executed in a state that does not call for it. Safe: `step`
  asks for no such action from a state a run reaches. -/
  | unlistedAction
  deriving DecidableEq, Repr

/-- Why the machine refuses. -/
inductive Refusal where
  /-- An instruction with no meaning yet; raised only by an arm of `exec`. Safe. -/
  | notModelled (mnemonic : String)
  /-- A request that spells no operation: "a model refuses it (gives it no step and marks the state refused)"
  (R74, U13). Raised by `step` only. Safe. -/
  | illFormed (why : DecodeError)
  deriving DecidableEq, Repr

/-- The controller's registers (R21), its parameters (R6) and its ports. -/
structure State where
  /-- `x[addr]` -/
  addr : I2cAddress
  /-- `x[phase]` -/
  phase : Phase
  /-- `x[step]` -/
  step : Option Label
  /-- `x[op]` -/
  op : Option (BitVec 4)
  /-- `x[arg]` -/
  arg : Option Byte
  /-- `x[wbuf]` -/
  wbuf : Option (List Byte)
  /-- `x[polls]` -/
  polls : Option Nat
  /-- `x[stat]` -/
  stat : Option Byte
  /-- `x[data]` -/
  data : Option Byte
  /-- the parameters of R6; no step writes them (log 8) -/
  params : Params
  /-- the requests the clients will present, in order (R196; log 9) -/
  requests : List Request
  /-- the completions the transport and the delay capability will give, in order (log 4) -/
  env : List Completion
  /-- how many free completions have been drawn after `env` was used up (log 4) -/
  draws : Nat
  /-- the port actions performed since construction, oldest first (R11, R61; log 12) -/
  trace : List PortAction
  deriving DecidableEq, Repr

/-- Construction (R42, R210): `addr = I2C_ADDR`, `phase = IDLE`, every other register `⊥`, no port action. -/
def State.reset : State :=
  { addr := Config.i2cAddr
    phase := .idle
    step := none
    op := none
    arg := none
    wbuf := none
    polls := none
    stat := none
    data := none
    params := Params.normative
    requests := []
    env := []
    draws := 0
    trace := [] }

end Sys2Proof.Machine
end

