-- ==== Sys2Proof/Machine/Operands.lean ====
section
/-! DEFINITION. Operand forms (spec/30_encoding.md R73, R77, R78, R79) and the frames the listings name (R76). -/

namespace Sys2Proof.Machine

/-- `cfgbyte(c) = {~c, c}` (R79). -/
def cfgByte (c : BitVec 4) : Byte := (~~~c) ++ c

/-- `bitpay(v) = v ? 0xFF : 0x00` (R78). -/
def bitPay (v : Bool) : Byte := if v then 0xFF else 0x00

/-- The status register's select code (R77). -/
def selectStatus : Byte := 0xF0

/-- The data register's select code (R77). -/
def selectData : Byte := 0xE1

/-- F.DRST (R76). -/
def bytesDrst : List Byte := [0xF0]

/-- F.WCFG (R76): the configuration byte after the command. -/
def bytesWcfg (b : Byte) : List Byte := [0xD2, b]

/-- F.1WRS (R76). -/
def bytes1wrs : List Byte := [0xB4]

/-- F.1WSB (R76). -/
def bytes1wsb (b : Byte) : List Byte := [0x87, b]

/-- F.1WRB (R76). -/
def bytes1wrb : List Byte := [0x96]

/-- F.1WWB (R76). -/
def bytes1wwb (v : Byte) : List Byte := [0xA5, v]

/-- F.1WT (R76). -/
def bytes1wt (b : Byte) : List Byte := [0x78, b]

/-- F.SRP (R76): the register-select code after the command. -/
def bytesSrp (p : Byte) : List Byte := [0xE1, p]

/-- The value of a search handle: bit 0 is its alarm flag (R82, R170, R171; log 16). -/
def handleValue (alarm : Bool) : Byte := bitByte alarm

end Sys2Proof.Machine
end

