-- ==== Sys2Proof/Machine/Flags.lean ====
section
/-! DEFINITION. The bits of a status byte (spec/10_state.md R30) and what each interpretation makes of one
(R141, R142, R146). The controller has no flag of its own (R26). -/

namespace Sys2Proof.Machine

/-- 1WB, bit 0: busy. -/
def status1wb (s : Byte) : Bool := s.getLsbD 0

/-- PPD, bit 1: presence-pulse-detect. -/
def statusPpd (s : Byte) : Bool := s.getLsbD 1

/-- SD, bit 2: short-detected. -/
def statusSd (s : Byte) : Bool := s.getLsbD 2

/-- LL, bit 3: no meaning in the source; no rule reads it (R35). -/
def statusLl (s : Byte) : Bool := s.getLsbD 3

/-- RST, bit 4: reset-indicator. -/
def statusRst (s : Byte) : Bool := s.getLsbD 4

/-- SBR, bit 5: single-bit-result. -/
def statusSbr (s : Byte) : Bool := s.getLsbD 5

/-- TSB, bit 6: triplet-second-bit. -/
def statusTsb (s : Byte) : Bool := s.getLsbD 6

/-- DIR, bit 7: triplet-direction-taken. -/
def statusDir (s : Byte) : Bool := s.getLsbD 7

/-- How an interpretation ends: `return v` or `raise E` (R10, R182). -/
inductive Verdict where
  | ret (v : Byte)
  | raise (e : OpError)
  deriving DecidableEq, Repr

/-- L3 of R100: success iff RST. -/
def verdictDeviceReset (s : Byte) : Verdict :=
  if statusRst s then .ret 0x00 else .raise .deviceReset

/-- INT of R141: SD first, then presence. -/
def verdictOwReset (s : Byte) : Verdict :=
  if statusSd s then .raise .shortDetected else .ret (bitByte (statusPpd s))

/-- INT of R142: `zext_8(s[5])`. -/
def verdictOwReadBit (s : Byte) : Verdict := .ret (bitByte (statusSbr s))

/-- The value of a triplet, `{0b00000, dir, cmp, id}` (R82, R146). -/
def tripletValue (dir cmp id : Bool) : Byte :=
  (0b00000#5) ++ (BitVec.ofBool dir) ++ (BitVec.ofBool cmp) ++ (BitVec.ofBool id)

/-- INT of R146: DIR, TSB and SBR as read; the requested direction does not enter. -/
def verdictOwTriplet (s : Byte) : Verdict :=
  .ret (tripletValue (statusDir s) (statusTsb s) (statusSbr s))

end Sys2Proof.Machine
end

