-- ==== Sys2Proof/Machine/Ops.lean ====
section
/-! DEFINITION. The named operations: drawing a completion, the port primitives of spec/00_scope.md R9, the
response and the raise of an error (60_exceptions.md R182), accepting a request (30_encoding.md R71), and
performing the action a listing names (10_state.md R23). -/

namespace Sys2Proof.Machine

/-- How the environment answers the port action being performed: the next listed completion, or a free one. -/
def completion (s : State) : Completion :=
  match s.env with
  | c :: _ => c
  | [] => Config.completion s.draws

/-- The state once that completion has been drawn. -/
def consume (s : State) : State :=
  match s.env with
  | _ :: rest => { s with env := rest }
  | [] => { s with draws := s.draws + 1 }

/-- The port action joins the trace (R61: in issue order). -/
def record (a : PortAction) (s : State) : State :=
  { s with trace := s.trace ++ [a] }

/-- The end of a request: every register but `addr` to `⊥`, `pc <- IDLE` (R24, R25, R182). -/
def clearRequest (s : State) : State :=
  { s with
    phase := .idle, step := none, op := none, arg := none, wbuf := none
    polls := none, stat := none, data := none }

/-- The code of an error (R180). -/
def errorCode : OpError → BitVec 3
  | .deviceReset => 1
  | .i2cCommunication _ => 2
  | .writeConfig => 3
  | .shortDetected => 4
  | .busyTimeout => 5

/-- `terr`: the transport error, for `I2CCommunicationError(e)` only (R82, R181). -/
def errorTerr : OpError → Option TErr
  | .deviceReset => none
  | .i2cCommunication e => some e
  | .writeConfig => none
  | .shortDetected => none
  | .busyTimeout => none

/-- An `OK` response (R82). -/
def responseOk (v : Byte) : Response :=
  { kind := .ok, code := 0, value := v, terr := none }

/-- An `ERR` response (R82, R182). -/
def responseErr (e : OpError) : Response :=
  { kind := .err, code := errorCode e, value := 0x00, terr := errorTerr e }

/-- `respond`: the response is sent and the request ends (R9, R23). -/
def respond (r : Response) (s : State) : State :=
  clearRequest (record (.respond r) s)

/-- TAKING AN ERROR, `raise E(info)` (R182): no further port action, the ERR response, the registers to `⊥`,
`IDLE`. Nothing is saved, no vector is taken. The block has no return from an error (R188). -/
def raiseError (e : OpError) (s : State) : State := respond (responseErr e) s

/-- The end of an interpretation (R10). -/
def conclude (v : Verdict) (s : State) : State :=
  match v with
  | .ret b => respond (responseOk b) s
  | .raise e => raiseError e s

/-- What an `Err(e)` of a transaction does: `raise I2CCommunicationError(e)` (R181), or, inside the best-effort
reset, it is discarded and the listing goes on (R102). -/
inductive OnErr where
  | raise
  | discard (next : Label)
  deriving DecidableEq, Repr

/-- The error is raised in the step of the failing transaction (R181 "at once"; log 2). -/
def failTransaction (e : TErr) (h : OnErr) (s : State) : State :=
  match h with
  | .raise => raiseError (.i2cCommunication e) s
  | .discard next => { s with step := some next }

/-- `MemWrite(A, n, bytes)` (R51), then `next`. `begins` says that the write is the first of a busy-wait, whose
L1 sets `polls` to 0 (R130). -/
def memWrite (bytes : List Byte) (next : Label) (h : OnErr) (begins : Bool) (s : State) : State :=
  match completion s with
  | .pending => consume s
  | .err e => failTransaction e h (record (.memWrite s.addr bytes (some e)) (consume s))
  | .ok _ =>
    { record (.memWrite s.addr bytes none) (consume s) with
      step := some next, polls := if begins then some 0 else s.polls }

/-- The register a plain read goes to (R21). -/
inductive ReadTarget where
  | stat
  | data
  deriving DecidableEq, Repr

/-- `x[stat] <- b` or `x[data] <- b`. -/
def writeTarget (t : ReadTarget) (b : Byte) (s : State) : State :=
  match t with
  | .stat => { s with stat := some b }
  | .data => { s with data := some b }

/-- `x[t] <- MemRead(A, 1)` (R52), then the label `next` selects from the byte. -/
def memRead (t : ReadTarget) (next : Byte → Label) (h : OnErr) (s : State) : State :=
  match completion s with
  | .pending => consume s
  | .err e => failTransaction e h (record (.memRead s.addr (.err e)) (consume s))
  | .ok b =>
    { writeTarget t b (record (.memRead s.addr (.byte b)) (consume s)) with step := some (next b) }

/-- The status read of a poll: `x[stat] <- MemRead(A, 1)` and `x[polls] <- x[polls] + 1`, where `k` is the count
before (L2 of R130). -/
def pollRead (k : Nat) (next : Byte → Label) (s : State) : State :=
  match completion s with
  | .pending => consume s
  | .err e => failTransaction e .raise (record (.memRead s.addr (.err e)) (consume s))
  | .ok b =>
    { record (.memRead s.addr (.byte b)) (consume s) with
      stat := some b, polls := some (k + 1), step := some (next b) }

/-- `Delay(POLL_DELAY_US)` and the choice of L5 and L6 (R130, R132): poll again while `k < POLL_LIMIT`, else
`timeout` in the strict variant and `onward` in the normative one. A delay cannot fail (R53; log 5). -/
def pollDelay (k : Nat) (again timeout onward : Label) (s : State) : State :=
  match completion s with
  | .pending => consume s
  | .ok _ | .err _ =>
    { record (.delay s.params.pollDelayUs) (consume s) with
      step := some
        (if k < s.params.pollLimit then again
         else if s.params.busyTimeoutStrict then timeout else onward) }

/-- The action a label of a listing names (R23). -/
inductive Action where
  | write (bytes : List Byte) (next : Label) (h : OnErr) (begins : Bool)
  | read (t : ReadTarget) (next : Byte → Label) (h : OnErr)
  | poll (next : Byte → Label)
  | delay (again timeout onward : Label)
  /-- `return v`, a constant -/
  | done (v : Byte)
  /-- `raise E` -/
  | fail (e : OpError)
  /-- interpret `x[stat]` -/
  | judgeStat (f : Byte → Verdict)
  /-- interpret `x[data]` -/
  | judgeData (f : Byte → Verdict)

/-- The value of a register, or the fault R24 asks for when it holds `⊥`. -/
def withRegister {α : Type} (r : Register) (v : Option α) (f : α → Host.Outcome State Fault Refusal) :
    Host.Outcome State Fault Refusal :=
  match v with
  | none => .fault (.readBottom r)
  | some a => f a

/-- One step of the controller: the action `x[step]` names (R5, R23). -/
def perform (a : Action) (s : State) : Host.Outcome State Fault Refusal :=
  match a with
  | .write bytes next h begins => .next (memWrite bytes next h begins s)
  | .read t next h => .next (memRead t next h s)
  | .poll next => withRegister .polls s.polls fun k => .next (pollRead k next s)
  | .delay again timeout onward =>
    withRegister .polls s.polls fun k => .next (pollDelay k again timeout onward s)
  | .done v => .next (respond (responseOk v) s)
  | .fail e => .next (raiseError e s)
  | .judgeStat f => withRegister .stat s.stat fun b => .next (conclude (f b) s)
  | .judgeData f => withRegister .data s.data fun b => .next (conclude (f b) s)

/-- Accepting a request (R71): the request registers are written, `phase` becomes RUN, `step` the first label of
the listing; the transient registers hold `⊥` at its start (R24). The client's request leaves the port. -/
def accept (op : BitVec 4) (arg : Byte) (wbuf : Option (List Byte)) (first : Label) (s : State) : State :=
  { s with
    phase := .run, step := some first, op := some op, arg := some arg, wbuf := wbuf
    polls := none, stat := none, data := none, requests := s.requests.tail }

/-- The action a listing names at `x[step]`, performed. -/
def performAt (listing : Label → Option Action) (s : State) : Host.Outcome State Fault Refusal :=
  withRegister .step s.step fun l =>
    match listing l with
    | none => .fault .unlistedAction
    | some a => perform a s

/-- A request's meaning, one step at a time: in IDLE it is accepted; in RUN the next action of its listing is
performed (R5, R23, R71; log 1). -/
def runRequest (op : BitVec 4) (arg : Byte) (wbuf : Option (List Byte)) (first : Label)
    (listing : Label → Option Action) (s : State) : Host.Outcome State Fault Refusal :=
  match s.phase with
  | .idle => .next (accept op arg wbuf first s)
  | .run => performAt listing s

end Sys2Proof.Machine
end

