-- ==== Sys2Proof/Machine/Enumeration.lean ====
section
/-! DEFINITION. The enumeration entry points (spec/43_enumeration.md R170, R171): no port action but the response. -/

namespace Sys2Proof.Machine

/-- R170. -/
def listSearchAll : Label → Option Action
  | .l1 => some (.done (handleValue false))
  | _ => none

/-- `SEARCH_ALL` (R170). -/
def execSearchAll (s : State) : Host.Outcome State Fault Refusal :=
  runRequest 0xE 0x00 none .l1 listSearchAll s

/-- R171. -/
def listSearchAlarm : Label → Option Action
  | .l1 => some (.done (handleValue true))
  | _ => none

/-- `SEARCH_ALARM` (R171). -/
def execSearchAlarm (s : State) : Host.Outcome State Fault Refusal :=
  runRequest 0xF 0x00 none .l1 listSearchAlarm s

end Sys2Proof.Machine
end

