-- ==== Sys2Proof/Machine/BusyWait.lean ====
section
/-! DEFINITION. The busy-wait controller (spec/41_busy_wait.md R130 to R134). -/

namespace Sys2Proof.Machine

/-- R130 at a site, with `onward` the label after it ends normally. Only the direct request has a return of its
own; only L6 of the strict variant raises. -/
def listWait (site : WaitSite) (onward : Label) : WaitLabel → Option Action
  | .l1 => some (.write (bytesSrp selectStatus) (.wait site .read) .raise true)
  | .select => some (.write (bytesSrp selectStatus) (.wait site .read) .raise false)
  | .read => some (.poll fun b => if status1wb b then .wait site .delay else onward)
  | .delay => some (.delay (.wait site .select) (.wait site .timeout) onward)
  | .ret => if site = .direct then some (.judgeStat .ret) else none
  | .timeout => some (.fail .busyTimeout)

/-- R130 as a request: it returns the last status byte whole. -/
def listBusyWait : Label → Option Action
  | .wait .direct w => listWait .direct (.wait .direct .ret) w
  | _ => none

/-- `BUSY_WAIT` (R130). -/
def execBusyWait (s : State) : Host.Outcome State Fault Refusal :=
  runRequest 0x7 0x00 none (.wait .direct .l1) listBusyWait s

end Sys2Proof.Machine
end

