-- ==== Sys2Proof/Machine/OneWire.lean ====
section
/-! DEFINITION. The One-Wire primitives (spec/42_onewire.md R140 to R146). -/

namespace Sys2Proof.Machine

/-- The common sequence (R140) of a primitive whose result needs no fetch: PRE, the command frame, POST, INT. -/
def listPrimitive (frame : List Byte) (result : Action) : Label → Option Action
  | .wait .pre w => listWait .pre .cmd w
  | .cmd => some (.write frame (.wait .post .l1) .raise false)
  | .wait .post w => listWait .post .int w
  | .int => some result
  | _ => none

/-- `OW_RESET` (R141). -/
def listOwReset : Label → Option Action :=
  listPrimitive bytes1wrs (.judgeStat verdictOwReset)

/-- `OW_RESET` (R141). -/
def execOwReset (s : State) : Host.Outcome State Fault Refusal :=
  runRequest 0x8 0x00 none (.wait .pre .l1) listOwReset s

/-- R142: the payload 0xFF drives the time slot as a read. -/
def listOwReadBit : Label → Option Action :=
  listPrimitive (bytes1wsb (bitPay true)) (.judgeStat verdictOwReadBit)

/-- `OW_READ_BIT` (R142). -/
def execOwReadBit (s : State) : Host.Outcome State Fault Refusal :=
  runRequest 0x9 0x00 none (.wait .pre .l1) listOwReadBit s

/-- R143: no result besides success. -/
def listOwWriteBit (v : Bool) : Label → Option Action :=
  listPrimitive (bytes1wsb (bitPay v)) (.done 0x00)

/-- `OW_WRITE_BIT v` (R143). -/
def execOwWriteBit (v : Bool) (s : State) : Host.Outcome State Fault Refusal :=
  runRequest 0xA (bitByte v) none (.wait .pre .l1) (listOwWriteBit v) s

/-- R144: after the post-wait the data register is fetched as R106 does. -/
def listOwReadByte : Label → Option Action
  | .wait .pre w => listWait .pre .cmd w
  | .cmd => some (.write bytes1wrb (.wait .post .l1) .raise false)
  | .wait .post w => listWait .post .fetchSelect w
  | .fetchSelect => some (.write (bytesSrp selectData) .fetchRead .raise false)
  | .fetchRead => some (.read .data (fun _ => .int) .raise)
  | .int => some (.judgeData .ret)
  | _ => none

/-- `OW_READ_BYTE` (R144). -/
def execOwReadByte (s : State) : Host.Outcome State Fault Refusal :=
  runRequest 0xB 0x00 none (.wait .pre .l1) listOwReadByte s

/-- R145. -/
def listOwWriteByte (v : Byte) : Label → Option Action :=
  listPrimitive (bytes1wwb v) (.done 0x00)

/-- `OW_WRITE_BYTE v` (R145). -/
def execOwWriteByte (v : Byte) (s : State) : Host.Outcome State Fault Refusal :=
  runRequest 0xC v none (.wait .pre .l1) (listOwWriteByte v) s

/-- R146: one frame; `d` does not enter the interpretation. -/
def listOwTriplet (d : Bool) : Label → Option Action :=
  listPrimitive (bytes1wt (bitPay d)) (.judgeStat verdictOwTriplet)

/-- `OW_TRIPLET d` (R146). -/
def execOwTriplet (d : Bool) (s : State) : Host.Outcome State Fault Refusal :=
  runRequest 0xD (bitByte d) none (.wait .pre .l1) (listOwTriplet d) s

end Sys2Proof.Machine
end

