-- ==== Sys2Proof/Machine/RegisterIo.lean ====
section
/-! DEFINITION. The register I/O layer (spec/40_register_io.md R100 to R107). No listing here runs a busy-wait
(R108). -/

namespace Sys2Proof.Machine

/-- R100. The byte at L2 is read with no Set Read Pointer before it (D6). -/
def listDeviceReset : Label → Option Action
  | .l1 => some (.write bytesDrst .l2 .raise false)
  | .l2 => some (.read .stat (fun _ => .l3) .raise)
  | .l3 => some (.judgeStat verdictDeviceReset)
  | _ => none

/-- `DEVICE_RESET` (R100). -/
def execDeviceReset (s : State) : Host.Outcome State Fault Refusal :=
  runRequest 0x0 0x00 none .l1 listDeviceReset s

/-- R101, with the best-effort reset of R102 at L4: whatever it ends with, the listing goes on to L5. -/
def listWriteConfig (c : BitVec 4) : Label → Option Action
  | .l1 => some (.write (bytesWcfg (cfgByte c)) .l2 .raise false)
  | .l2 => some (.read .data (fun b => if b = zext8 c then .l3 else .l4Write) .raise)
  | .l3 => some (.done 0x00)
  | .l4Write => some (.write bytesDrst .l4Read (.discard .l5) false)
  | .l4Read => some (.read .stat (fun _ => .l5) (.discard .l5))
  | .l5 => some (.fail .writeConfig)
  | _ => none

/-- `WRITE_CONFIG c` (R101). -/
def execWriteConfig (c : BitVec 4) (s : State) : Host.Outcome State Fault Refusal :=
  runRequest 0x1 (zext8 c) none .l1 (listWriteConfig c) s

/-- R103: every `p` is sent as it stands (D18). -/
def listSetReadPointer (p : Byte) : Label → Option Action
  | .l1 => some (.write (bytesSrp p) .l2 .raise false)
  | .l2 => some (.done 0x00)
  | _ => none

/-- `SET_READ_POINTER p` (R103). -/
def execSetReadPointer (p : Byte) (s : State) : Host.Outcome State Fault Refusal :=
  runRequest 0x2 p none .l1 (listSetReadPointer p) s

/-- R104. -/
def listRegReadByte : Label → Option Action
  | .l1 => some (.read .data (fun _ => .l2) .raise)
  | .l2 => some (.judgeData .ret)
  | _ => none

/-- `REG_READ_BYTE` (R104). -/
def execRegReadByte (s : State) : Host.Outcome State Fault Refusal :=
  runRequest 0x3 0x00 none .l1 listRegReadByte s

/-- R105. -/
def listReadStatus : Label → Option Action
  | .l1 => some (.write (bytesSrp selectStatus) .l2 .raise false)
  | .l2 => some (.read .stat (fun _ => .l3) .raise)
  | .l3 => some (.judgeStat .ret)
  | _ => none

/-- `READ_STATUS` (R105). -/
def execReadStatus (s : State) : Host.Outcome State Fault Refusal :=
  runRequest 0x4 0x00 none .l1 listReadStatus s

/-- R106. -/
def listReadDataRegister : Label → Option Action
  | .l1 => some (.write (bytesSrp selectData) .l2 .raise false)
  | .l2 => some (.read .data (fun _ => .l3) .raise)
  | .l3 => some (.judgeData .ret)
  | _ => none

/-- `READ_DATA_REGISTER` (R106). -/
def execReadDataRegister (s : State) : Host.Outcome State Fault Refusal :=
  runRequest 0x5 0x00 none .l1 listReadDataRegister s

/-- R107: the payload is one frame, not checked against the command table. -/
def listWriteBytes (bytes : List Byte) : Label → Option Action
  | .l1 => some (.write bytes .l2 .raise false)
  | .l2 => some (.done 0x00)
  | _ => none

/-- `WRITE_BYTES` (R107). -/
def execWriteBytes (n : Byte) (bytes : List Byte) (s : State) : Host.Outcome State Fault Refusal :=
  runRequest 0x6 n (some bytes) .l1 (listWriteBytes bytes) s

end Sys2Proof.Machine
end

