-- ==== Sys2Proof/Machine/Fetch.lean ====
section
/-! DEFINITION. What the controller does next: the request presented while it is IDLE, or, in RUN, the action the
listing of the request in progress names (spec/10_state.md R23, 30_encoding.md R70, R71). -/

namespace Sys2Proof.Machine

/-- The listing of an operation (R23); a frame has none. -/
def listing : Instr → Label → Option Action
  | .deviceReset => listDeviceReset
  | .writeConfig c => listWriteConfig c
  | .setReadPointer p => listSetReadPointer p
  | .regReadByte => listRegReadByte
  | .readStatus => listReadStatus
  | .readDataRegister => listReadDataRegister
  | .writeBytes _ bytes => listWriteBytes bytes
  | .busyWait => listBusyWait
  | .owReset => listOwReset
  | .owReadBit => listOwReadBit
  | .owWriteBit v => listOwWriteBit v
  | .owReadByte => listOwReadByte
  | .owWriteByte v => listOwWriteByte v
  | .owTriplet d => listOwTriplet d
  | .searchAll => listSearchAll
  | .searchAlarm => listSearchAlarm
  | .frameDrst => fun _ => none
  | .frameWcfg _ => fun _ => none
  | .frame1wrs => fun _ => none
  | .frame1wsb _ => fun _ => none
  | .frame1wrb => fun _ => none
  | .frame1wwb _ => fun _ => none
  | .frame1wt _ => fun _ => none
  | .frameSrp _ => fun _ => none

/-- What a fetch finds. -/
inductive Fetched where
  /-- no request is presented (R196 "stop") -/
  | nothing
  | instr (i : Instr)
  | fault (f : Fault)
  | refused (r : Refusal)
  deriving DecidableEq, Repr

/-- The request in progress, from `x[op]`, `x[arg]` and `x[wbuf]` (R21, R25). -/
def inProgress (s : State) : Fetched :=
  match s.op with
  | none => .fault (.readBottom .op)
  | some op =>
    match s.arg with
    | none => .fault (.readBottom .arg)
    | some arg =>
      if op = 0x6 ∧ s.wbuf = none then .fault (.readBottom .wbuf)
      else match decodeRequest { word := requestWord op arg, wbuf := s.wbuf } with
        | .ok i => .instr i
        | .error e => .refused (.illFormed e)

/-- The action the listing of `i` names at `x[step]`. -/
def actionAt (i : Instr) (s : State) : Option Action :=
  match s.step with
  | none => none
  | some l => listing i l

/-- The frame instruction of an action: the frame a `MemWrite` carries, when it is one of R76's. -/
def frameOf (a : Option Action) : Option Instr :=
  match a with
  | some (.write bytes _ _ _) =>
    match decodeWholeFrame bytes with
    | .ok f => some f
    | .error _ => none
  | some _ => none
  | none => none

/-- In IDLE, the request at the request port (R71). In RUN, the frame about to be sent, or the request in
progress when its next action sends no frame of R76 (R70; log 10). -/
def fetch (s : State) : Fetched :=
  match s.phase with
  | .idle =>
    match s.requests with
    | [] => .nothing
    | r :: _ =>
      match decodeRequest r with
      | .ok i => .instr i
      | .error e => .refused (.illFormed e)
  | .run =>
    match inProgress s with
    | .instr i =>
      match frameOf (actionAt i s) with
      | some f => .instr f
      | none => .instr i
    | other => other

end Sys2Proof.Machine
end

