-- ==== Sys2Proof/Machine/Frames.lean ====
section
/-! DEFINITION. The eight I2C frames (spec/30_encoding.md R76) as instructions: each is one `MemWrite` of its bytes,
performed as the action `x[step]` names in the request in progress (R23; log 10). -/

namespace Sys2Proof.Machine

/-- A `MemWrite` of `bytes`, with the next label and the treatment of an error that the listing in progress gives
it. The controller "never performs an action no listing names" (R23). -/
def emitFrame (bytes : List Byte) (s : State) : Host.Outcome State Fault Refusal :=
  match inProgress s with
  | .fault f => .fault f
  | .refused r => .refused r
  | .nothing => .fault .unlistedAction
  | .instr i =>
    withRegister .step s.step fun l =>
      match listing i l with
      | some (.write named next h begins) =>
        if named = bytes then .next (memWrite bytes next h begins s) else .fault .unlistedAction
      | some _ => .fault .unlistedAction
      | none => .fault .unlistedAction

/-- F.DRST, Device Reset. -/
def execFrameDrst (s : State) : Host.Outcome State Fault Refusal := emitFrame bytesDrst s

/-- F.WCFG, Write Config. -/
def execFrameWcfg (b : Byte) (s : State) : Host.Outcome State Fault Refusal := emitFrame (bytesWcfg b) s

/-- F.1WRS, 1-Wire Reset. -/
def execFrame1wrs (s : State) : Host.Outcome State Fault Refusal := emitFrame bytes1wrs s

/-- F.1WSB, 1-Wire Single Bit. -/
def execFrame1wsb (b : Byte) (s : State) : Host.Outcome State Fault Refusal := emitFrame (bytes1wsb b) s

/-- F.1WRB, 1-Wire Read Byte. -/
def execFrame1wrb (s : State) : Host.Outcome State Fault Refusal := emitFrame bytes1wrb s

/-- F.1WWB, 1-Wire Write Byte. -/
def execFrame1wwb (v : Byte) (s : State) : Host.Outcome State Fault Refusal := emitFrame (bytes1wwb v) s

/-- F.1WT, Triplet. -/
def execFrame1wt (b : Byte) (s : State) : Host.Outcome State Fault Refusal := emitFrame (bytes1wt b) s

/-- F.SRP, Set Read Pointer. -/
def execFrameSrp (p : Byte) (s : State) : Host.Outcome State Fault Refusal := emitFrame (bytesSrp p) s

end Sys2Proof.Machine
end

