-- ==== Sys2Proof/Machine/Dispatch.lean ====
section
/-! DEFINITION. One arm per row of spec/opcode_table.json. -/

namespace Sys2Proof.Machine

def exec (i : Instr) (s : State) : Host.Outcome State Fault Refusal :=
  match i with
  -- register I/O (40_register_io.md)
  | .deviceReset => Sys2Proof.Machine.execDeviceReset s
  | .writeConfig c => Sys2Proof.Machine.execWriteConfig c s
  | .setReadPointer p => Sys2Proof.Machine.execSetReadPointer p s
  | .regReadByte => Sys2Proof.Machine.execRegReadByte s
  | .readStatus => Sys2Proof.Machine.execReadStatus s
  | .readDataRegister => Sys2Proof.Machine.execReadDataRegister s
  | .writeBytes n bytes => Sys2Proof.Machine.execWriteBytes n bytes s
  -- busy-wait (41_busy_wait.md)
  | .busyWait => Sys2Proof.Machine.execBusyWait s
  -- One-Wire primitives (42_onewire.md)
  | .owReset => Sys2Proof.Machine.execOwReset s
  | .owReadBit => Sys2Proof.Machine.execOwReadBit s
  | .owWriteBit v => Sys2Proof.Machine.execOwWriteBit v s
  | .owReadByte => Sys2Proof.Machine.execOwReadByte s
  | .owWriteByte v => Sys2Proof.Machine.execOwWriteByte v s
  | .owTriplet d => Sys2Proof.Machine.execOwTriplet d s
  -- enumeration (43_enumeration.md)
  | .searchAll => Sys2Proof.Machine.execSearchAll s
  | .searchAlarm => Sys2Proof.Machine.execSearchAlarm s
  -- I2C frames (30_encoding.md R76)
  | .frameDrst => Sys2Proof.Machine.execFrameDrst s
  | .frameWcfg b => Sys2Proof.Machine.execFrameWcfg b s
  | .frame1wrs => Sys2Proof.Machine.execFrame1wrs s
  | .frame1wsb b => Sys2Proof.Machine.execFrame1wsb b s
  | .frame1wrb => Sys2Proof.Machine.execFrame1wrb s
  | .frame1wwb v => Sys2Proof.Machine.execFrame1wwb v s
  | .frame1wt b => Sys2Proof.Machine.execFrame1wt b s
  | .frameSrp p => Sys2Proof.Machine.execFrameSrp p s

end Sys2Proof.Machine
end

