-- ==== Sys2Proof/Machine/Step.lean ====
section
/-! DEFINITION. One step of the controller (spec/00_scope.md R5): the acceptance of a request, or one port action. -/

namespace Sys2Proof.Machine

/-- The step runs the instruction `fetch` finds; with no request presented the block stays IDLE (R196). -/
def step (s : State) : Host.Outcome State Fault Refusal :=
  match fetch s with
  | .nothing => .next s
  | .instr i => exec i s
  | .fault f => .fault f
  | .refused r => .refused r

/-- `s` with a word of opcode_table.json where `step` fetches next (log 11). A request is presented at the request
port of the idle block; a frame is the payload of a `WRITE_BYTES` request in progress, which sends it as it stands
(R107). The request `s` was running, if any, is dropped. -/
def State.withFetchWord (s : State) (nbits w : Nat) : State :=
  match tableEncoding nbits w with
  | .request r => { clearRequest s with requests := r :: s.requests }
  | .frame bytes =>
    { clearRequest s with
      phase := .run, step := some .l1, op := some 0x6
      arg := some (BitVec.ofNat 8 bytes.length), wbuf := some bytes }

end Sys2Proof.Machine
end

