-- ==== Sys2Proof/Machine/Chip.lean ====
section
/-! DEFINITION. The bridge chip as the controller sees it (spec/10_state.md R30 to R41): an environment contract
that a claim may name as a premise. The controller's steps do not use this file, and the chip's answers are free
without it (D22; log 15). -/

namespace Sys2Proof.Machine

/-- The chip's registers (R30, R37, R38, R39). Their reset values are unspecified (R42). -/
structure Chip where
  status : Byte
  data : Byte
  config : Byte
  pointer : Byte
  deriving DecidableEq, Repr

/-- `CFG_SPEED`, bit 3 of a configuration value (R38). -/
def cfgSpeed (c : BitVec 4) : Bool := c.getLsbD 3

/-- `CFG_SPU`, bit 2 of a configuration value (R38). -/
def cfgSpu (c : BitVec 4) : Bool := c.getLsbD 2

/-- `CFG_RSVD`, bit 1 of a configuration value: must be zero; the controller does not check it (R38, D14). -/
def cfgRsvd (c : BitVec 4) : Bool := c.getLsbD 1

/-- `CFG_APU`, bit 0 of a configuration value (R38). -/
def cfgApu (c : BitVec 4) : Bool := c.getLsbD 0

/-- The chip is executing a bus operation (R31). -/
def chipBusy (c : Chip) : Bool := status1wb c.status

/-- The register a plain read returns, where the document names the select code (R39, R77). -/
def chipSelected (c : Chip) : Option Byte :=
  if c.pointer = selectStatus then some c.status
  else if c.pointer = selectData then some c.data
  else none

/-- DEDUCED (R31, R37, R39; log 15): an idle chip that is sent no command starts no bus operation, so it stays idle
and its data register, configuration and pointer stay. The other status bits are free. -/
def chipStays (c c' : Chip) : Prop :=
  chipBusy c' = false ∧ c'.data = c.data ∧ c'.config = c.config ∧ c'.pointer = c.pointer

/-- A select code the document lists (R77). What the chip does with any other is not in the source (R81, U2). -/
def listedSelect (p : Byte) : Bool := p == selectStatus || p == selectData

/-- A payload of Single Bit or Triplet that the document lists (R78). For any other no behaviour is to be assumed (N11). -/
def listedPayload (p : Byte) : Bool := p == bitPay true || p == bitPay false

/-- A configuration byte as R79 builds it, its reserved bit 0 (R38). With the bit set no behaviour is to be assumed
(N11); a byte R79 does not build is left free too (DESIGN CHOICE, log 15). -/
def listedConfig (v : Byte) : Bool := v == cfgByte (v.setWidth 4) && !cfgRsvd (v.setWidth 4)

/-- What an idle chip does with a frame. A Device Reset sets RST and restores the power-on configuration (R33, R41). A
Set Read Pointer frame of a listed code sets the pointer (R39); that it starts no bus operation, and so leaves the chip
idle with its data and configuration, is DEDUCED (R31, R59; log 15). The other commands but Read Byte, with a listed
payload, leave the data register as it is, since it holds the byte of the last Read Byte (R37; DEDUCED, log 15). Every
other register is free (U7), and so is all of the chip after any other frame: an unlisted command byte or select code
(U2), an unlisted payload, or a configuration with its reserved bit set (N11). -/
def chipTakes (c c' : Chip) (bytes : List Byte) : Prop :=
  match bytes with
  | [0xF0#8] => statusRst c'.status = true ∧ c'.config = Config.chipPowerOnConfig
  | [0xE1#8, p] => listedSelect p = true → chipStays { c with pointer := p } c'
  | [0xD2#8, v] => listedConfig v = true → c'.data = c.data
  | [0xB4#8] => c'.data = c.data
  | [0x87#8, p] => listedPayload p = true → c'.data = c.data
  | [0xA5#8, _] => c'.data = c.data
  | [0x78#8, p] => listedPayload p = true → c'.data = c.data
  | _ => True

/-- What the One-Wire bus answers to a bus operation: free for the chip, and free for the controller. -/
structure BusAnswer where
  /-- at least one device answered a One-Wire reset -/
  presence : Bool
  /-- the bus was electrically shorted during a One-Wire reset -/
  shorted : Bool
  /-- the bit a single-bit time slot reads, or the first bit of a triplet -/
  bit : Bool
  /-- the complement bit a triplet reads -/
  complement : Bool
  /-- the direction a triplet took on the bus -/
  direction : Bool
  /-- the byte a One-Wire Read Byte receives -/
  byte : Byte
  deriving DecidableEq, Repr

/-- The chip once the bus operation of a frame is over (R31) with the answer `a`: PPD and SD after a One-Wire reset
(R32), SBR after a single bit, SBR, TSB and DIR after a triplet (R34), the data register after a read byte (R37). After
a payload the document does not list nothing is fixed of a result (N11). -/
def chipCompleted (bytes : List Byte) (a : BusAnswer) (c : Chip) : Prop :=
  chipBusy c = false ∧
  match bytes with
  | [0xB4#8] => statusPpd c.status = a.presence ∧ statusSd c.status = a.shorted
  | [0x87#8, p] => listedPayload p = true → statusSbr c.status = a.bit
  | [0x78#8, p] => listedPayload p = true →
    statusSbr c.status = a.bit ∧ statusTsb c.status = a.complement ∧ statusDir c.status = a.direction
  | [0x96#8] => c.data = a.byte
  | _ => True

/-- The contract of one port action between the chip before and after it. It binds an idle chip only: what a busy chip
does with a command, a pointer frame or a read, and the byte it returns, are any (R40, U1), and so is any chip after a
failed transaction (U3; for a read, log 15). An idle chip returns the selected register to a read (R39) and is
otherwise left as `chipStays` says, by a delay and across a response too; a busy one may move on in each (R59). -/
def chipContract (c : Chip) (a : PortAction) (c' : Chip) : Prop :=
  match a with
  | .memWrite _ _ (some _) => True
  | .memWrite _ bytes none => chipBusy c = false → chipTakes c c' bytes
  | .memRead _ (.byte b) => chipBusy c = false → (∀ v, chipSelected c = some v → b = v) ∧ chipStays c c'
  | .memRead _ (.err _) => True
  | .delay _ => chipBusy c = false → chipStays c c'
  | .respond _ => chipBusy c = false → chipStays c c'

end Sys2Proof.Machine
end

