-- ==== Sys2Proof/Safety.lean ====
section
/-! DEFINITION. What the claims are stated in: runs of several steps, the states an action leaves, the invariant of
a sound controller, and the bound on a request's port actions. -/

namespace Sys2Proof.Machine

/-- `k` steps, stopping at the first fault or refusal. -/
def runSteps : Nat → State → Host.Outcome State Fault Refusal
  | 0, s => .next s
  | k + 1, s =>
    match step s with
    | .next t => runSteps k t
    | .fault f => .fault f
    | .refused r => .refused r

/-- The block is in RUN and `l` names its next port action (R23). -/
def RunsAt (l : Label) (s : State) : Prop := s.phase = .run ∧ s.step = some l

/-- After the completed port action `a`, at the label `l`: nothing else changes but the environment. -/
def movedOn (s : State) (a : PortAction) (l : Label) : State :=
  { consume s with trace := s.trace ++ [a], step := some l }

/-- After a request that ended with `r`, the port actions `acts` performed in that step before the response: every
register but `addr` holds `⊥` and the block is IDLE (R24, R25, R182). -/
def endedWith (s : State) (acts : List PortAction) (r : Response) : State :=
  { s with
    phase := .idle, step := none, op := none, arg := none, wbuf := none
    polls := none, stat := none, data := none
    trace := s.trace ++ acts ++ [.respond r] }

/-- The end of a request whose transaction `a` ended in `Err(e)` (R181, R182). -/
def endedByTransport (s : State) (a : PortAction) (e : TErr) : State :=
  endedWith (consume s) [a] { kind := .err, code := 2, value := 0x00, terr := some e }

/-- At `l`, `i` performs `MemWrite(x[addr], bytes)`, goes on at `next`, raises on `Err` and stays blocked until the
transport completes. -/
def WritesAt (i : Instr) (l : Label) (bytes : List Byte) (next : Label) : Prop :=
  ∀ s, RunsAt l s →
    (∀ x, completion s = .ok x → exec i s = .next (movedOn s (.memWrite s.addr bytes none) next)) ∧
    (∀ e, completion s = .err e →
      exec i s = .next (endedByTransport s (.memWrite s.addr bytes (some e)) e)) ∧
    (completion s = .pending → exec i s = .next (consume s))

/-- At `l`, `i` performs `x[stat] <- MemRead(x[addr], 1)`, goes on at the label `next` selects from the byte, raises
on `Err` and stays blocked until the transport completes. -/
def ReadsStatAt (i : Instr) (l : Label) (next : Byte → Label) : Prop :=
  ∀ s, RunsAt l s →
    (∀ b, completion s = .ok b →
      exec i s = .next { movedOn s (.memRead s.addr (.byte b)) (next b) with stat := some b }) ∧
    (∀ e, completion s = .err e →
      exec i s = .next (endedByTransport s (.memRead s.addr (.err e)) e)) ∧
    (completion s = .pending → exec i s = .next (consume s))

/-- As `ReadsStatAt`, into `x[data]`. -/
def ReadsDataAt (i : Instr) (l : Label) (next : Byte → Label) : Prop :=
  ∀ s, RunsAt l s →
    (∀ b, completion s = .ok b →
      exec i s = .next { movedOn s (.memRead s.addr (.byte b)) (next b) with data := some b }) ∧
    (∀ e, completion s = .err e →
      exec i s = .next (endedByTransport s (.memRead s.addr (.err e)) e)) ∧
    (completion s = .pending → exec i s = .next (consume s))

/-- At `l`, in every state with `P`, `i` ends the request with the response `OK v`. -/
def ReturnsAt (i : Instr) (l : Label) (P : State → Prop) (v : Byte) : Prop :=
  ∀ s, RunsAt l s → P s →
    exec i s = .next (endedWith s [] { kind := .ok, code := 0, value := v, terr := none })

/-- At `l`, in every state with `P`, `i` ends the request with the error of code `code`, which carries no transport
error. -/
def RaisesAt (i : Instr) (l : Label) (P : State → Prop) (code : BitVec 3) : Prop :=
  ∀ s, RunsAt l s → P s →
    exec i s = .next (endedWith s [] { kind := .err, code := code, value := 0x00, terr := none })

/-- In IDLE, `i` is accepted: the request registers hold its operation code, its argument and its payload, and the
first label of its listing is next (R71). -/
def AcceptedAt (i : Instr) (op : BitVec 4) (arg : Byte) (wbuf : Option (List Byte)) (first : Label) : Prop :=
  ∀ s, s.phase = .idle →
    exec i s = .next
      { s with
        phase := .run, step := some first, op := some op, arg := some arg, wbuf := wbuf
        polls := none, stat := none, data := none, requests := s.requests.tail }

/-- The busy-wait of R130 at a site, ending normally at `onward`: each port action, the count, the choice on 1WB, the
choice on the bound. -/
def WaitsAt (i : Instr) (site : WaitSite) (onward : Label) : Prop :=
  (∀ s, RunsAt (.wait site .l1) s →
    (∀ x, completion s = .ok x →
      exec i s = .next
        { movedOn s (.memWrite s.addr [0xE1, 0xF0] none) (.wait site .read) with polls := some 0 }) ∧
    (∀ e, completion s = .err e →
      exec i s = .next (endedByTransport s (.memWrite s.addr [0xE1, 0xF0] (some e)) e)) ∧
    (completion s = .pending → exec i s = .next (consume s))) ∧
  WritesAt i (.wait site .select) [0xE1, 0xF0] (.wait site .read) ∧
  (∀ s k, RunsAt (.wait site .read) s → s.polls = some k →
    (∀ b, completion s = .ok b →
      exec i s = .next
        { movedOn s (.memRead s.addr (.byte b))
            (if b.getLsbD 0 = true then .wait site .delay else onward) with
          stat := some b, polls := some (k + 1) }) ∧
    (∀ e, completion s = .err e →
      exec i s = .next (endedByTransport s (.memRead s.addr (.err e)) e)) ∧
    (completion s = .pending → exec i s = .next (consume s))) ∧
  (∀ s k, RunsAt (.wait site .delay) s → s.polls = some k →
    (completion s ≠ .pending →
      exec i s = .next
        (movedOn s (.delay s.params.pollDelayUs)
          (if k < s.params.pollLimit then .wait site .select
           else if s.params.busyTimeoutStrict = true then .wait site .timeout else onward))) ∧
    (completion s = .pending → exec i s = .next (consume s))) ∧
  RaisesAt i (.wait site .timeout) (fun _ => True) 5

/-- A One-Wire primitive up to its post-wait: the request word, its acceptance, PRE and CMD (R140). -/
def PrimitiveAt (i : Instr) (op : BitVec 4) (arg : Byte) (frame : List Byte) : Prop :=
  decodeRequest { word := op ++ arg, wbuf := none } = .ok i ∧
  AcceptedAt i op arg none (.wait .pre .l1) ∧
  WaitsAt i .pre .cmd ∧
  WritesAt i .cmd frame (.wait .post .l1)

/-- The frame `f` is one `MemWrite` of `bytes`, wherever the listing in progress names that write: it goes on at the
label the listing gives, and treats an error as the listing says (R76, R181, R102). -/
def EmitsFrame (f : Instr) (bytes : List Byte) : Prop :=
  decodeWholeFrame bytes = .ok f ∧
  ∀ s i l next h begins, inProgress s = .instr i → s.step = some l →
    listing i l = some (.write bytes next h begins) →
    (∀ x, completion s = .ok x →
      exec f s = .next
        { movedOn s (.memWrite s.addr bytes none) next with
          polls := if begins = true then some 0 else s.polls }) ∧
    (∀ e, completion s = .err e → h = .raise →
      exec f s = .next (endedByTransport s (.memWrite s.addr bytes (some e)) e)) ∧
    (∀ e l', completion s = .err e → h = .discard l' →
      exec f s = .next (movedOn s (.memWrite s.addr bytes (some e)) l')) ∧
    (completion s = .pending → exec f s = .next (consume s))

/-- The ill-formed requests of R74, from the fields of the word. -/
def illFormedRequest (op : BitVec 4) (arg : Byte) (wbuf : Option (List Byte)) : Prop :=
  (op ∈ [0x0#4, 0x3#4, 0x4#4, 0x5#4, 0x7#4, 0x8#4, 0x9#4, 0xB#4, 0xE#4, 0xF#4] ∧ arg ≠ 0x00) ∨
  (op = 0x1 ∧ arg.extractLsb' 4 4 ≠ 0) ∨
  ((op = 0xA ∨ op = 0xD) ∧ arg.extractLsb' 1 7 ≠ 0) ∨
  (op = 0x6 ∧ (arg = 0x00 ∨ ∀ bytes, wbuf = some bytes → bytes.length ≠ arg.toNat)) ∨
  (op ≠ 0x6 ∧ wbuf ≠ none)

/-- The operations of the register-I/O layer, R100 to R107. -/
def registerLayer : Instr → Bool
  | .deviceReset | .writeConfig _ | .setReadPointer _ | .regReadByte | .readStatus | .readDataRegister
  | .writeBytes _ _ => true
  | _ => false

/-- The bits of the post-wait status a primitive examines (R147). -/
def examinedBits : Instr → Byte
  | .owReset => 0b00000110
  | .owReadBit => 0b00100000
  | .owTriplet _ => 0b11100000
  | _ => 0b00000000

/-- The six One-Wire primitives, each with its command frame (R141 to R146). -/
def commandFrame : Instr → Option (List Byte)
  | .owReset => some [0xB4]
  | .owReadBit => some [0x87, 0xFF]
  | .owWriteBit v => some [0x87, if v then 0xFF else 0x00]
  | .owReadByte => some [0x96]
  | .owWriteByte v => some [0xA5, v]
  | .owTriplet d => some [0x78, if d then 0xFF else 0x00]
  | _ => none

/-- The busy-waits an operation runs, with the label after each (R130, R140, R144). -/
def waitOf : Instr → WaitSite → Option Label
  | .busyWait, .direct => some (.wait .direct .ret)
  | i, .pre => if (commandFrame i).isSome then some .cmd else none
  | .owReadByte, .post => some .fetchSelect
  | i, .post => if (commandFrame i).isSome then some .int else none
  | _, _ => none

/-- The first label of an operation's listing (R71, R100 to R171). -/
def firstLabel : Instr → Label
  | .busyWait => .wait .direct .l1
  | i => if (commandFrame i).isSome then .wait .pre .l1 else .l1

/-- A poll that reads `b`, its two transactions and the delay after it completing with `x` and `y`: what the
environment gives. -/
def pollAnswers (p : Byte × Byte × Byte) : List Completion := [.ok p.1, .ok p.2.1, .ok p.2.2]

/-- A busy poll as the trace shows it: `W[E1 F0] R=b D` (R11, R130). -/
def pollTrace (a : I2cAddress) (us : Nat) (p : Byte × Byte × Byte) : List PortAction :=
  [.memWrite a [0xE1, 0xF0] none, .memRead a (.byte p.2.1), .delay us]

/-- Every register of R24 and R25 holds `⊥`. -/
def allBottom (s : State) : Bool :=
  s.step.isNone && s.op.isNone && s.arg.isNone && s.wbuf.isNone && s.polls.isNone && s.stat.isNone
    && s.data.isNone

/-- An action finds the register it interprets. -/
def actionReady (a : Action) (s : State) : Bool :=
  match a with
  | .judgeStat _ => s.stat.isSome
  | .judgeData _ => s.data.isSome
  | _ => true

/-- Inside a busy-wait the count stands where R130 says: below the bound while another poll is due, a status read
before a delay, and the raise of L6 only in the strict variant. -/
def waitReady (l : Label) (s : State) : Bool :=
  match l with
  | .wait _ .select | .wait _ .read => s.polls.any (· < s.params.pollLimit)
  | .wait _ .delay => s.polls.isSome && s.stat.isSome
  | .wait _ .timeout => s.params.busyTimeoutStrict
  | _ => true

/-- The invariant of the controller: the bound is positive, `polls` is at most the bound (R21), in IDLE every register
holds `⊥` (R24, R25), and in RUN the registers spell a request whose listing names an action at `x[step]`, with every
register that action reads (R23, R24). -/
def inv (s : State) : Bool :=
  decide (1 ≤ s.params.pollLimit) && s.polls.all (· ≤ s.params.pollLimit) &&
  match s.phase with
  | .idle => allBottom s
  | .run =>
    match inProgress s, s.step with
    | .instr i, some l =>
      match listing i l with
      | some a => actionReady a s && waitReady l s
      | none => false
    | _, _ => false

/-- R183's table: the error codes an operation can end with. -/
def errorAllowed (i : Instr) (strict : Bool) (code : BitVec 3) : Bool :=
  match i with
  | .deviceReset => code == 2 || code == 1
  | .writeConfig _ => code == 2 || code == 3
  | .setReadPointer _ | .regReadByte | .readStatus | .readDataRegister | .writeBytes _ _ => code == 2
  | .busyWait => code == 2 || (strict && code == 5)
  | .owReset => code == 2 || code == 4 || (strict && code == 5)
  | .owReadBit | .owWriteBit _ | .owReadByte | .owWriteByte _ | .owTriplet _ =>
    code == 2 || (strict && code == 5)
  | _ => false

/-- The responses of a trace, in order. -/
def responses (tr : List PortAction) : List Response :=
  tr.filterMap fun a => match a with
    | .respond r => some r
    | _ => none

/-- Every transaction of a trace is addressed to `a` (R22). -/
def addressedTo (a : I2cAddress) (tr : List PortAction) : Bool :=
  tr.all fun p => match p with
    | .memWrite b _ _ => b == a
    | .memRead b _ => b == a
    | _ => true

/-- Port actions still to come in a busy-wait of bound `n` with `k` polls made (R131, R134). -/
def waitLeft (n k : Nat) : WaitLabel → Nat
  | .l1 => 3 * n
  | .select => 3 * (n - k)
  | .read => 3 * (n - k) - 1
  | .delay => 3 * (n - k) + 1
  | .ret => 0
  | .timeout => 0

/-- The fetch of `OW_READ_BYTE` is two transactions (R144). -/
def fetchActions : Instr → Nat
  | .owReadByte => 2
  | _ => 0

/-- The most port actions, the response apart, that a request performs from the label `l` on (R134, R148). -/
def actionsLeft (i : Instr) (n k : Nat) : Label → Nat
  | .l1 =>
    match i with
    | .deviceReset | .readStatus | .readDataRegister => 2
    | .writeConfig _ => 4
    | .setReadPointer _ | .regReadByte | .writeBytes _ _ => 1
    | _ => 0
  | .l2 =>
    match i with
    | .deviceReset | .readStatus | .readDataRegister => 1
    | .writeConfig _ => 3
    | _ => 0
  | .l3 => 0
  | .l4Write => 2
  | .l4Read => 1
  | .l5 => 0
  | .wait .direct w => waitLeft n k w
  | .wait .pre w => waitLeft n k w + 1 + 3 * n + fetchActions i
  | .cmd => 1 + 3 * n + fetchActions i
  | .wait .post w => waitLeft n k w + fetchActions i
  | .fetchSelect => 2
  | .fetchRead => 1
  | .int => 0

/-- The most port actions of a whole request (R134, R148): with the bound 1000, 3000 for `BUSY_WAIT`, 6001 for a
primitive and 6003 for `OW_READ_BYTE`. -/
def requestBound (i : Instr) (n : Nat) : Nat := actionsLeft i n 0 (firstLabel i)

end Sys2Proof.Machine
end

