-- ==== Sys2Proof/Certificates/Slice0/Obligations.lean ====
section
/-! DEFINITION. The statements for the provers, from the numbered rules of spec/. -/

open Sys2Proof Sys2Proof.Machine

/-! ### Encoding -/

/-- R72, R76: words written out from the tables decode to what they stand for. -/
def Obligations.SpecWordsDecode : Prop :=
  decodeRequest { word := 0x105#12, wbuf := none } = .ok (.writeConfig 0x5) ∧
  decodeRequest { word := 0x2F0#12, wbuf := none } = .ok (.setReadPointer 0xF0) ∧
  decodeRequest { word := 0x603#12, wbuf := some [0x01, 0x02, 0x03] } =
    .ok (.writeBytes 0x03 [0x01, 0x02, 0x03]) ∧
  decodeRequest { word := 0x700#12, wbuf := none } = .ok .busyWait ∧
  decodeRequest { word := 0xA01#12, wbuf := none } = .ok (.owWriteBit true) ∧
  decodeRequest { word := 0xCA5#12, wbuf := none } = .ok (.owWriteByte 0xA5) ∧
  decodeRequest { word := 0xD00#12, wbuf := none } = .ok (.owTriplet false) ∧
  decodeRequest { word := 0xF00#12, wbuf := none } = .ok .searchAlarm ∧
  decodeWholeFrame [0xD2, 0xE1] = .ok (.frameWcfg 0xE1) ∧
  decodeWholeFrame [0xE1, 0xF0] = .ok (.frameSrp 0xF0) ∧
  decodeWholeFrame [0xB4] = .ok .frame1wrs

/-- R71 to R76: decoding the encoding of a well-formed instruction gives it back, with every operand. -/
def Obligations.DecodeEncodeAgree : Prop :=
  ∀ i : Instr, i.wellFormed = true → decode (encode i) = .ok i

/-- R71 to R76: what decodes is the encoding of a well-formed instruction, and of no other. -/
def Obligations.DecodedIsItsEncoding : Prop :=
  ∀ (e : Encoding) (i : Instr), decode e = .ok i → encode i = e ∧ i.wellFormed = true

/-- R74: an idle block refuses an ill-formed request and takes any other. -/
def Obligations.IllFormedRequestsRefused : Prop :=
  ∀ (op : BitVec 4) (arg : Byte) (wbuf : Option (List Byte)) (s : State) (rest : List Request),
    s.phase = .idle → s.requests = { word := op ++ arg, wbuf := wbuf } :: rest →
    (illFormedRequest op arg wbuf → ∃ why, step s = .refused (.illFormed why)) ∧
    (¬ illFormedRequest op arg wbuf → ∃ t, step s = .next t)

/-- R80: byte 0 of a frame gives its length; a `WRITE_BYTES` frame has the length of its payload. -/
def Obligations.FrameLengthFromFirstByte : Prop :=
  (∀ (cmd : Byte) (rest : List Byte), cmd ∈ [0xF0#8, 0xB4#8, 0x96#8] →
    ∃ i, decodeFrame (cmd :: rest) = .ok (i, rest) ∧ encode i = .frame [cmd]) ∧
  (∀ (cmd b : Byte) (rest : List Byte), cmd ∈ [0xD2#8, 0x87#8, 0xA5#8, 0x78#8, 0xE1#8] →
    ∃ i, decodeFrame (cmd :: b :: rest) = .ok (i, rest) ∧ encode i = .frame [cmd, b]) ∧
  (∀ cmd : Byte, cmd ∈ [0xD2#8, 0x87#8, 0xA5#8, 0x78#8, 0xE1#8] →
    decodeFrame [cmd] = .error (.truncatedFrame cmd)) ∧
  (∀ (cmd : Byte) (rest : List Byte),
    cmd ∉ [0xF0#8, 0xB4#8, 0x96#8, 0xD2#8, 0x87#8, 0xA5#8, 0x78#8, 0xE1#8] →
    decodeFrame (cmd :: rest) = .error (.unknownCommand cmd)) ∧
  (∀ (n : Byte) (bytes : List Byte), WritesAt (.writeBytes n bytes) .l1 bytes .l2)

/-- R79: the configuration byte is `{~c, c}`, with the document's examples, and it is what `WRITE_CONFIG` sends. -/
def Obligations.ConfigurationByte : Prop :=
  (∀ c : BitVec 4,
    (cfgByte c).extractLsb' 4 4 = ~~~c ∧ (cfgByte c).extractLsb' 0 4 = c ∧
    (cfgByte c).extractLsb' 4 4 ^^^ (cfgByte c).extractLsb' 0 4 = 0xF#4 ∧
    WritesAt (.writeConfig c) .l1 [0xD2, cfgByte c] .l2) ∧
  cfgByte 0x0 = 0xF0 ∧ cfgByte 0x1 = 0xE1 ∧ cfgByte 0x5 = 0xA5 ∧ cfgByte 0xF = 0x0F

/-- R78: `bitpay` is 0xFF or 0x00, and it is the payload of a bit write, of a bit read and of a triplet. -/
def Obligations.BitPayload : Prop :=
  bitPay true = 0xFF ∧ bitPay false = 0x00 ∧
  (∀ v, WritesAt (.owWriteBit v) .cmd [0x87, bitPay v] (.wait .post .l1)) ∧
  WritesAt .owReadBit .cmd [0x87, 0xFF] (.wait .post .l1) ∧
  (∀ d, WritesAt (.owTriplet d) .cmd [0x78, bitPay d] (.wait .post .l1))

/-! ### Reset, fetch and the request port -/

/-- R210, R42: construction sets `addr` to `I2C_ADDR` and `phase` to IDLE, leaves every other register at `⊥` and
performs no port action; the first request may follow at once. That reset gives the parameters the values of R6 is the
model's own choice (log 8). -/
def Obligations.ConstructionState : Prop :=
  State.reset.addr = Config.i2cAddr ∧ State.reset.phase = .idle ∧ State.reset.step = none ∧
  State.reset.op = none ∧ State.reset.arg = none ∧ State.reset.wbuf = none ∧ State.reset.polls = none ∧
  State.reset.stat = none ∧ State.reset.data = none ∧ State.reset.trace = [] ∧
  State.reset.params.pollLimit = 1000 ∧ State.reset.params.pollDelayUs = 20 ∧
  State.reset.params.busyTimeoutStrict = false ∧
  step { State.reset with requests := [] } = .next { State.reset with requests := [] } ∧
  (∀ r i, decodeRequest r = .ok i → ∃ t, step { State.reset with requests := [r] } = .next t ∧ t.phase = .run)

/-- R23, R70, R71: the step runs the instruction found at the request port, or the frame or the request of the
request in progress; with no request presented the block stays IDLE. That in RUN a frame of R76 is the instruction run
where the listing's write carries it is the model's own choice (log 10). -/
def Obligations.StepRunsFetchedInstruction : Prop :=
  (∀ s, s.phase = .idle → s.requests = [] → step s = .next s) ∧
  (∀ s r rest i, s.phase = .idle → s.requests = r :: rest → decodeRequest r = .ok i →
    step s = exec i s) ∧
  (∀ s op arg i l, RunsAt l s → s.op = some op → s.arg = some arg →
    decodeRequest { word := op ++ arg, wbuf := s.wbuf } = .ok i →
    (∀ bytes next h b f, listing i l = some (.write bytes next h b) → decodeWholeFrame bytes = .ok f →
      step s = exec f s) ∧
    ((∀ bytes next h b f, listing i l = some (.write bytes next h b) → decodeWholeFrame bytes ≠ .ok f) →
      step s = exec i s))

/-- R23, R70: the two layers agree. In RUN the step is the step of the request in progress, also where it runs the
frame that request sends; at a label its listing does not hold it faults. The frame as an instruction (log 10) and the
fault `unlistedAction` (log 13) are the model's own choices. -/
def Obligations.RunningStepIsRequestStep : Prop :=
  ∀ s i l, RunsAt l s → inProgress s = .instr i →
    step s = exec i s ∧ (listing i l = none → step s = .fault .unlistedAction)

/-- R71, R72: an idle block that runs a request writes its operation code, argument and payload, sets the transient
registers to `⊥`, and stands at the first label of its listing. -/
def Obligations.RequestAccepted : Prop :=
  AcceptedAt .deviceReset 0x0 0x00 none .l1 ∧
  (∀ c : BitVec 4, AcceptedAt (.writeConfig c) 0x1 (0x0#4 ++ c) none .l1) ∧
  (∀ p, AcceptedAt (.setReadPointer p) 0x2 p none .l1) ∧
  AcceptedAt .regReadByte 0x3 0x00 none .l1 ∧
  AcceptedAt .readStatus 0x4 0x00 none .l1 ∧
  AcceptedAt .readDataRegister 0x5 0x00 none .l1 ∧
  (∀ n bytes, AcceptedAt (.writeBytes n bytes) 0x6 n (some bytes) .l1) ∧
  AcceptedAt .busyWait 0x7 0x00 none (.wait .direct .l1) ∧
  AcceptedAt .owReset 0x8 0x00 none (.wait .pre .l1) ∧
  AcceptedAt .owReadBit 0x9 0x00 none (.wait .pre .l1) ∧
  (∀ v, AcceptedAt (.owWriteBit v) 0xA (if v then 0x01 else 0x00) none (.wait .pre .l1)) ∧
  AcceptedAt .owReadByte 0xB 0x00 none (.wait .pre .l1) ∧
  (∀ v, AcceptedAt (.owWriteByte v) 0xC v none (.wait .pre .l1)) ∧
  (∀ d, AcceptedAt (.owTriplet d) 0xD (if d then 0x01 else 0x00) none (.wait .pre .l1)) ∧
  AcceptedAt .searchAll 0xE 0x00 none .l1 ∧
  AcceptedAt .searchAlarm 0xF 0x00 none .l1

/-- R63, R71: in RUN no request is taken from the port; in IDLE the presented one is, with its own fields, and no
port action is performed. -/
def Obligations.RequestTakenOnlyWhenIdle : Prop :=
  ∀ s t, step s = .next t →
    (s.phase = .run → t.requests = s.requests) ∧
    (∀ r rest, s.phase = .idle → s.requests = r :: rest →
      t.phase = .run ∧ t.requests = rest ∧ t.op = some (r.word.extractLsb' 8 4) ∧
      t.arg = some (r.word.extractLsb' 0 8) ∧ t.wbuf = r.wbuf ∧ t.trace = s.trace ∧ t.env = s.env)

/-- R5, R182: a step is nothing at all, an acceptance, a wait for the environment, one port action that leaves the
block in RUN, a response, or a failed transaction with the response it raises. The acceptance as a step of its own
(log 1), and a failed transaction and its response in one step (log 2), are the model's own choices. -/
def Obligations.EachStepIsOnePortAction : Prop :=
  ∀ s t, step s = .next t →
    (s.phase = .idle ∧ s.requests = [] ∧ t = s) ∨
    (s.phase = .idle ∧ s.requests ≠ [] ∧ t.phase = .run ∧ t.trace = s.trace) ∨
    (s.phase = .run ∧ completion s = .pending ∧ t = consume s) ∨
    (s.phase = .run ∧ ∃ p l,
      ((∃ bytes r, p = .memWrite s.addr bytes r) ∨ (∃ r, p = .memRead s.addr r) ∨
        p = .delay s.params.pollDelayUs) ∧
      t = { movedOn s p l with polls := t.polls, stat := t.stat, data := t.data }) ∨
    (s.phase = .run ∧ ∃ r, t = endedWith s [] r) ∨
    (s.phase = .run ∧ ∃ p e, completion s = .err e ∧
      ((∃ bytes, p = .memWrite s.addr bytes (some e)) ∨ p = .memRead s.addr (.err e)) ∧
      t = endedByTransport s p e)

/-! ### Register I/O -/

/-- R100. -/
def Obligations.DeviceResetListing : Prop :=
  decodeRequest { word := 0x000#12, wbuf := none } = .ok .deviceReset ∧
  AcceptedAt .deviceReset 0x0 0x00 none .l1 ∧
  WritesAt .deviceReset .l1 [0xF0] .l2 ∧
  ReadsStatAt .deviceReset .l2 (fun _ => .l3) ∧
  (∀ b : Byte, b.getLsbD 4 = true → ReturnsAt .deviceReset .l3 (fun s => s.stat = some b) 0x00) ∧
  (∀ b : Byte, b.getLsbD 4 = false → RaisesAt .deviceReset .l3 (fun s => s.stat = some b) 1)

/-- R101, R102: the read-back is compared as a whole byte with `c`; after a mismatch the best-effort reset runs once,
whatever it ends with is discarded, and the request ends with `WriteConfigError`. -/
def Obligations.WriteConfigListing : Prop :=
  ∀ c : BitVec 4,
    decodeRequest { word := 0x1#4 ++ (0x0#4 ++ c), wbuf := none } = .ok (.writeConfig c) ∧
    AcceptedAt (.writeConfig c) 0x1 (0x0#4 ++ c) none .l1 ∧
    WritesAt (.writeConfig c) .l1 [0xD2, ~~~c ++ c] .l2 ∧
    ReadsDataAt (.writeConfig c) .l2 (fun b => if b = 0x0#4 ++ c then .l3 else .l4Write) ∧
    ReturnsAt (.writeConfig c) .l3 (fun _ => True) 0x00 ∧
    (∀ s, RunsAt .l4Write s →
      (∀ x, completion s = .ok x →
        exec (.writeConfig c) s = .next (movedOn s (.memWrite s.addr [0xF0] none) .l4Read)) ∧
      (∀ e, completion s = .err e →
        exec (.writeConfig c) s = .next (movedOn s (.memWrite s.addr [0xF0] (some e)) .l5)) ∧
      (completion s = .pending → exec (.writeConfig c) s = .next (consume s))) ∧
    (∀ s, RunsAt .l4Read s →
      (∀ b, completion s = .ok b →
        exec (.writeConfig c) s =
          .next { movedOn s (.memRead s.addr (.byte b)) .l5 with stat := some b }) ∧
      (∀ e, completion s = .err e →
        exec (.writeConfig c) s = .next (movedOn s (.memRead s.addr (.err e)) .l5)) ∧
      (completion s = .pending → exec (.writeConfig c) s = .next (consume s))) ∧
    RaisesAt (.writeConfig c) .l5 (fun _ => True) 3 ∧
    (~~~c ++ c = 0x0#4 ++ c ↔ c = 0xF#4)

/-- R103. -/
def Obligations.SetReadPointerListing : Prop :=
  ∀ p : Byte,
    decodeRequest { word := 0x2#4 ++ p, wbuf := none } = .ok (.setReadPointer p) ∧
    AcceptedAt (.setReadPointer p) 0x2 p none .l1 ∧
    WritesAt (.setReadPointer p) .l1 [0xE1, p] .l2 ∧
    ReturnsAt (.setReadPointer p) .l2 (fun _ => True) 0x00

/-- R104. -/
def Obligations.RegReadByteListing : Prop :=
  decodeRequest { word := 0x300#12, wbuf := none } = .ok .regReadByte ∧
  AcceptedAt .regReadByte 0x3 0x00 none .l1 ∧
  ReadsDataAt .regReadByte .l1 (fun _ => .l2) ∧
  (∀ b, ReturnsAt .regReadByte .l2 (fun s => s.data = some b) b)

/-- R105. -/
def Obligations.ReadStatusListing : Prop :=
  decodeRequest { word := 0x400#12, wbuf := none } = .ok .readStatus ∧
  AcceptedAt .readStatus 0x4 0x00 none .l1 ∧
  WritesAt .readStatus .l1 [0xE1, 0xF0] .l2 ∧
  ReadsStatAt .readStatus .l2 (fun _ => .l3) ∧
  (∀ b, ReturnsAt .readStatus .l3 (fun s => s.stat = some b) b)

/-- R106. -/
def Obligations.ReadDataRegisterListing : Prop :=
  decodeRequest { word := 0x500#12, wbuf := none } = .ok .readDataRegister ∧
  AcceptedAt .readDataRegister 0x5 0x00 none .l1 ∧
  WritesAt .readDataRegister .l1 [0xE1, 0xE1] .l2 ∧
  ReadsDataAt .readDataRegister .l2 (fun _ => .l3) ∧
  (∀ b, ReturnsAt .readDataRegister .l3 (fun s => s.data = some b) b)

/-- R107: the payload goes out as one frame, whatever its bytes; a request with `n = 0` is refused. -/
def Obligations.WriteBytesListing : Prop :=
  (∀ (n : Byte) (bytes : List Byte), n ≠ 0x00 → bytes.length = n.toNat →
    decodeRequest { word := 0x6#4 ++ n, wbuf := some bytes } = .ok (.writeBytes n bytes)) ∧
  (∀ wbuf, decodeRequest { word := 0x600#12, wbuf := wbuf } = .error .emptyWrite) ∧
  (∀ (n : Byte) (bytes : List Byte),
    AcceptedAt (.writeBytes n bytes) 0x6 n (some bytes) .l1 ∧
    WritesAt (.writeBytes n bytes) .l1 bytes .l2 ∧
    ReturnsAt (.writeBytes n bytes) .l2 (fun _ => True) 0x00)

/-- R108: no operation of the register layer stands at a label of the busy-wait, and none performs a delay. What stands
at its first label is said by the listings of R100 to R107. That it faults at a label of the busy-wait, with
`unlistedAction`, is the model's own choice (log 13). -/
def Obligations.RegisterLayerNeverWaits : Prop :=
  ∀ i, registerLayer i = true →
    (∀ s, s.phase = .idle → ∃ t, exec i s = .next t ∧ t.step = some .l1) ∧
    (∀ s site w, RunsAt (.wait site w) s → exec i s = .fault .unlistedAction) ∧
    (∀ s t, s.phase = .run → exec i s = .next t → ∀ us, t.trace ≠ s.trace ++ [.delay us])

/-! ### Busy-wait -/

/-- R130: each port action of the busy-wait requested directly, the count, the test of 1WB, the bound, and the return
of the last status byte whole. -/
def Obligations.BusyWaitListing : Prop :=
  decodeRequest { word := 0x700#12, wbuf := none } = .ok .busyWait ∧
  AcceptedAt .busyWait 0x7 0x00 none (.wait .direct .l1) ∧
  WaitsAt .busyWait .direct (.wait .direct .ret) ∧
  (∀ b, ReturnsAt .busyWait (.wait .direct .ret) (fun s => s.stat = some b) b)

/-- R130: a wait whose first idle status is the poll after those of `ps` makes `ps.length + 1` polls, each selecting
the status register anew, and a delay after each busy one; it leaves the last status byte in `x[stat]`. -/
def Obligations.WaitEndsAtFirstIdlePoll : Prop :=
  ∀ (i : Instr) (site : WaitSite) (onward : Label) (s : State) (ps : List (Byte × Byte × Byte)) (x b : Byte)
    (rest : List Completion),
    waitOf i site = some onward → inProgress s = .instr i → RunsAt (.wait site .l1) s →
    (∀ p ∈ ps, p.2.1.getLsbD 0 = true) → b.getLsbD 0 = false → ps.length < s.params.pollLimit →
    s.env = ps.flatMap pollAnswers ++ .ok x :: .ok b :: rest →
    runSteps (3 * ps.length + 2) s = .next
      { s with
        env := rest, polls := some (ps.length + 1), stat := some b, step := some onward
        trace := s.trace ++ ps.flatMap (pollTrace s.addr s.params.pollDelayUs) ++
          [.memWrite s.addr [0xE1, 0xF0] none, .memRead s.addr (.byte b)] }

/-- R131, R132, R140: a wait that finds the chip busy at every poll makes `POLL_LIMIT` polls and as many delays, then
goes on with the last status (normative) or stands at the raise of `BusyTimeout` (strict). -/
def Obligations.WaitExhaustsItsBound : Prop :=
  ∀ (i : Instr) (site : WaitSite) (onward : Label) (s : State) (ps : List (Byte × Byte × Byte))
    (last : Byte × Byte × Byte) (rest : List Completion),
    waitOf i site = some onward → inProgress s = .instr i → RunsAt (.wait site .l1) s →
    (∀ p ∈ ps ++ [last], p.2.1.getLsbD 0 = true) → (ps ++ [last]).length = s.params.pollLimit →
    s.env = (ps ++ [last]).flatMap pollAnswers ++ rest →
    runSteps (3 * s.params.pollLimit) s = .next
      { s with
        env := rest, polls := some s.params.pollLimit, stat := some last.2.1
        step := some (if s.params.busyTimeoutStrict = true then .wait site .timeout else onward)
        trace := s.trace ++ (ps ++ [last]).flatMap (pollTrace s.addr s.params.pollDelayUs) }

/-- R131, R132: `BUSY_WAIT` against a chip that is busy at every poll performs exactly `POLL_LIMIT` polls and as many
delays, then returns the last status without an error, or raises `BusyTimeout` in the strict variant. -/
def Obligations.BusyWaitOnBusyChip : Prop :=
  ∀ (s : State) (rs : List Request) (ps : List (Byte × Byte × Byte)) (last : Byte × Byte × Byte)
    (rest : List Completion),
    s.phase = .idle → s.requests = { word := 0x700#12, wbuf := none } :: rs →
    (∀ p ∈ ps ++ [last], p.2.1.getLsbD 0 = true) → (ps ++ [last]).length = s.params.pollLimit →
    s.env = (ps ++ [last]).flatMap pollAnswers ++ rest →
    runSteps (3 * s.params.pollLimit + 2) s = .next
      (endedWith { s with requests := rs, env := rest }
        ((ps ++ [last]).flatMap (pollTrace s.addr s.params.pollDelayUs))
        (if s.params.busyTimeoutStrict = true then
          { kind := .err, code := 5, value := 0x00, terr := none }
         else { kind := .ok, code := 0, value := last.2.1, terr := none }))

/-! ### One-Wire primitives -/

/-- R140: every primitive waits, sends its one command frame, waits again, and only `OW_READ_BYTE` then fetches the
data register. -/
def Obligations.PrimitiveCommonSequence : Prop :=
  ∀ i frame, commandFrame i = some frame →
    (∀ s, s.phase = .idle → ∃ t, exec i s = .next t ∧ t.step = some (.wait .pre .l1)) ∧
    WaitsAt i .pre .cmd ∧
    WritesAt i .cmd frame (.wait .post .l1) ∧
    (i ≠ .owReadByte → WaitsAt i .post .int) ∧
    (i = .owReadByte →
      WaitsAt i .post .fetchSelect ∧ WritesAt i .fetchSelect [0xE1, 0xE1] .fetchRead ∧
      ReadsDataAt i .fetchRead (fun _ => .int))

/-- R141: SD first, then presence. -/
def Obligations.OwResetListing : Prop :=
  PrimitiveAt .owReset 0x8 0x00 [0xB4] ∧
  WaitsAt .owReset .post .int ∧
  (∀ b : Byte, b.getLsbD 2 = true → RaisesAt .owReset .int (fun s => s.stat = some b) 4) ∧
  (∀ b : Byte, b.getLsbD 2 = false → b.getLsbD 1 = true →
    ReturnsAt .owReset .int (fun s => s.stat = some b) 0x01) ∧
  (∀ b : Byte, b.getLsbD 2 = false → b.getLsbD 1 = false →
    ReturnsAt .owReset .int (fun s => s.stat = some b) 0x00)

/-- R142. -/
def Obligations.OwReadBitListing : Prop :=
  PrimitiveAt .owReadBit 0x9 0x00 [0x87, 0xFF] ∧
  WaitsAt .owReadBit .post .int ∧
  (∀ b : Byte, ReturnsAt .owReadBit .int (fun s => s.stat = some b)
    (if b.getLsbD 5 = true then 0x01 else 0x00))

/-- R143. -/
def Obligations.OwWriteBitListing : Prop :=
  PrimitiveAt (.owWriteBit true) 0xA 0x01 [0x87, 0xFF] ∧
  PrimitiveAt (.owWriteBit false) 0xA 0x00 [0x87, 0x00] ∧
  (∀ v, WaitsAt (.owWriteBit v) .post .int ∧ ReturnsAt (.owWriteBit v) .int (fun _ => True) 0x00)

/-- R144: the result comes from the data register, fetched after the post-wait. -/
def Obligations.OwReadByteListing : Prop :=
  PrimitiveAt .owReadByte 0xB 0x00 [0x96] ∧
  WaitsAt .owReadByte .post .fetchSelect ∧
  WritesAt .owReadByte .fetchSelect [0xE1, 0xE1] .fetchRead ∧
  ReadsDataAt .owReadByte .fetchRead (fun _ => .int) ∧
  (∀ b, ReturnsAt .owReadByte .int (fun s => s.data = some b) b)

/-- R145: every byte value is sent as it stands. -/
def Obligations.OwWriteByteListing : Prop :=
  ∀ v : Byte,
    PrimitiveAt (.owWriteByte v) 0xC v [0xA5, v] ∧
    WaitsAt (.owWriteByte v) .post .int ∧
    ReturnsAt (.owWriteByte v) .int (fun _ => True) 0x00

/-- R146: the result is bits 7 to 5 of the post-wait status, DIR, TSB and SBR, whatever direction was asked. -/
def Obligations.OwTripletListing : Prop :=
  PrimitiveAt (.owTriplet true) 0xD 0x01 [0x78, 0xFF] ∧
  PrimitiveAt (.owTriplet false) 0xD 0x00 [0x78, 0x00] ∧
  (∀ d, WaitsAt (.owTriplet d) .post .int) ∧
  (∀ d (b : Byte), ReturnsAt (.owTriplet d) .int (fun s => s.stat = some b) (b >>> 5))

/-- R147: the outcome of a primitive depends on no bit of the post-wait status but those it examines. -/
def Obligations.UnexaminedBitsDoNotMatter : Prop :=
  ∀ (i : Instr) (frame : List Byte) (s : State) (b b' : Byte),
    commandFrame i = some frame → RunsAt .int s → b &&& examinedBits i = b' &&& examinedBits i →
    exec i { s with stat := some b } = exec i { s with stat := some b' }

/-- R140, R186: after a pre-wait that found the chip busy at every poll, a primitive sends its command all the same
in the normative configuration; in the strict variant it ends with `BusyTimeout` and sends no command. -/
def Obligations.CommandAfterExhaustedPreWait : Prop :=
  ∀ (i : Instr) (frame : List Byte) (s : State) (r : Request) (rs : List Request)
    (ps : List (Byte × Byte × Byte)) (last : Byte × Byte × Byte) (x : Byte) (rest : List Completion),
    commandFrame i = some frame → s.phase = .idle → s.requests = r :: rs → decodeRequest r = .ok i →
    (∀ p ∈ ps ++ [last], p.2.1.getLsbD 0 = true) → (ps ++ [last]).length = s.params.pollLimit →
    s.env = (ps ++ [last]).flatMap pollAnswers ++ .ok x :: rest →
    (s.params.busyTimeoutStrict = false →
      ∃ t, runSteps (3 * s.params.pollLimit + 2) s = .next t ∧ RunsAt (.wait .post .l1) t ∧ t.env = rest ∧
        t.trace = s.trace ++ (ps ++ [last]).flatMap (pollTrace s.addr s.params.pollDelayUs) ++
          [.memWrite s.addr frame none]) ∧
    (s.params.busyTimeoutStrict = true →
      runSteps (3 * s.params.pollLimit + 2) s = .next
        (endedWith { s with requests := rs, env := .ok x :: rest }
          ((ps ++ [last]).flatMap (pollTrace s.addr s.params.pollDelayUs))
          { kind := .err, code := 5, value := 0x00, terr := none }))

/-! ### Enumeration -/

/-- R170, R171: no port action but the response, whose value is the alarm flag. -/
def Obligations.SearchEntryPoints : Prop :=
  decodeRequest { word := 0xE00#12, wbuf := none } = .ok .searchAll ∧
  AcceptedAt .searchAll 0xE 0x00 none .l1 ∧
  ReturnsAt .searchAll .l1 (fun _ => True) 0x00 ∧
  decodeRequest { word := 0xF00#12, wbuf := none } = .ok .searchAlarm ∧
  AcceptedAt .searchAlarm 0xF 0x00 none .l1 ∧
  ReturnsAt .searchAlarm .l1 (fun _ => True) 0x01

/-! ### Frames -/

/-- R76: each command frame is one `MemWrite` of its bytes. That the frame is an instruction, which runs where the
listing in progress names that write, is the model's own choice (log 10). -/
def Obligations.FramesAreOneWrite : Prop :=
  EmitsFrame .frameDrst [0xF0] ∧
  (∀ b, EmitsFrame (.frameWcfg b) [0xD2, b]) ∧
  EmitsFrame .frame1wrs [0xB4] ∧
  (∀ b, EmitsFrame (.frame1wsb b) [0x87, b]) ∧
  EmitsFrame .frame1wrb [0x96] ∧
  (∀ v, EmitsFrame (.frame1wwb v) [0xA5, v]) ∧
  (∀ b, EmitsFrame (.frame1wt b) [0x78, b]) ∧
  (∀ p, EmitsFrame (.frameSrp p) [0xE1, p])

/-! ### Whole requests -/

/-- R100, R103 to R107: the trace and the response of each register request whose transactions complete. -/
def Obligations.RegisterRequestsRun : Prop :=
  ∀ (s : State) (rs : List Request) (x b : Byte) (rest : List Completion), s.phase = .idle →
    (s.requests = { word := 0x000#12, wbuf := none } :: rs → s.env = .ok x :: .ok b :: rest →
      runSteps 4 s = .next (endedWith { s with requests := rs, env := rest }
        [.memWrite s.addr [0xF0] none, .memRead s.addr (.byte b)]
        (if b.getLsbD 4 = true then { kind := .ok, code := 0, value := 0x00, terr := none }
         else { kind := .err, code := 1, value := 0x00, terr := none }))) ∧
    (∀ p : Byte, s.requests = { word := 0x2#4 ++ p, wbuf := none } :: rs → s.env = .ok x :: rest →
      runSteps 3 s = .next (endedWith { s with requests := rs, env := rest }
        [.memWrite s.addr [0xE1, p] none] { kind := .ok, code := 0, value := 0x00, terr := none })) ∧
    (s.requests = { word := 0x300#12, wbuf := none } :: rs → s.env = .ok b :: rest →
      runSteps 3 s = .next (endedWith { s with requests := rs, env := rest }
        [.memRead s.addr (.byte b)] { kind := .ok, code := 0, value := b, terr := none })) ∧
    (s.requests = { word := 0x400#12, wbuf := none } :: rs → s.env = .ok x :: .ok b :: rest →
      runSteps 4 s = .next (endedWith { s with requests := rs, env := rest }
        [.memWrite s.addr [0xE1, 0xF0] none, .memRead s.addr (.byte b)]
        { kind := .ok, code := 0, value := b, terr := none })) ∧
    (s.requests = { word := 0x500#12, wbuf := none } :: rs → s.env = .ok x :: .ok b :: rest →
      runSteps 4 s = .next (endedWith { s with requests := rs, env := rest }
        [.memWrite s.addr [0xE1, 0xE1] none, .memRead s.addr (.byte b)]
        { kind := .ok, code := 0, value := b, terr := none })) ∧
    (∀ (n : Byte) (bytes : List Byte), n ≠ 0x00 → bytes.length = n.toNat →
      s.requests = { word := 0x6#4 ++ n, wbuf := some bytes } :: rs → s.env = .ok x :: rest →
      runSteps 3 s = .next (endedWith { s with requests := rs, env := rest }
        [.memWrite s.addr bytes none] { kind := .ok, code := 0, value := 0x00, terr := none }))

/-- R101, R102: `WRITE_CONFIG c` succeeds exactly when the byte read back is `c`; after a mismatch exactly one Device
Reset frame is sent before the response, which is `WriteConfigError` however the reset ends. -/
def Obligations.WriteConfigRuns : Prop :=
  ∀ (c : BitVec 4) (s : State) (rs : List Request) (x b : Byte) (rest : List Completion),
    s.phase = .idle → s.requests = { word := 0x1#4 ++ (0x0#4 ++ c), wbuf := none } :: rs →
    (b = 0x0#4 ++ c → s.env = .ok x :: .ok b :: rest →
      runSteps 4 s = .next (endedWith { s with requests := rs, env := rest }
        [.memWrite s.addr [0xD2, ~~~c ++ c] none, .memRead s.addr (.byte b)]
        { kind := .ok, code := 0, value := 0x00, terr := none })) ∧
    (∀ y b' : Byte, b ≠ 0x0#4 ++ c → s.env = .ok x :: .ok b :: .ok y :: .ok b' :: rest →
      runSteps 6 s = .next (endedWith { s with requests := rs, env := rest }
        [.memWrite s.addr [0xD2, ~~~c ++ c] none, .memRead s.addr (.byte b),
          .memWrite s.addr [0xF0] none, .memRead s.addr (.byte b')]
        { kind := .err, code := 3, value := 0x00, terr := none })) ∧
    (∀ e, b ≠ 0x0#4 ++ c → s.env = .ok x :: .ok b :: .err e :: rest →
      runSteps 5 s = .next (endedWith { s with requests := rs, env := rest }
        [.memWrite s.addr [0xD2, ~~~c ++ c] none, .memRead s.addr (.byte b),
          .memWrite s.addr [0xF0] (some e)]
        { kind := .err, code := 3, value := 0x00, terr := none })) ∧
    (∀ (y : Byte) (e : TErr), b ≠ 0x0#4 ++ c → s.env = .ok x :: .ok b :: .ok y :: .err e :: rest →
      runSteps 6 s = .next (endedWith { s with requests := rs, env := rest }
        [.memWrite s.addr [0xD2, ~~~c ++ c] none, .memRead s.addr (.byte b),
          .memWrite s.addr [0xF0] none, .memRead s.addr (.err e)]
        { kind := .err, code := 3, value := 0x00, terr := none }))

/-- R141 to R146: the trace and the response of each primitive whose two waits find the chip idle at once: five port
actions, seven for `OW_READ_BYTE` (R148). -/
def Obligations.PrimitivesRunOnIdleChip : Prop :=
  ∀ (i : Instr) (frame : List Byte) (s : State) (r : Request) (rs : List Request) (x p y z q : Byte)
    (rest : List Completion),
    commandFrame i = some frame → s.phase = .idle → s.requests = r :: rs → decodeRequest r = .ok i →
    p.getLsbD 0 = false → q.getLsbD 0 = false → 1 ≤ s.params.pollLimit →
    (i ≠ .owReadByte → s.env = .ok x :: .ok p :: .ok y :: .ok z :: .ok q :: rest →
      runSteps 7 s = .next (endedWith { s with requests := rs, env := rest }
        [.memWrite s.addr [0xE1, 0xF0] none, .memRead s.addr (.byte p), .memWrite s.addr frame none,
          .memWrite s.addr [0xE1, 0xF0] none, .memRead s.addr (.byte q)]
        (match i with
         | .owReset =>
           if q.getLsbD 2 = true then { kind := .err, code := 4, value := 0x00, terr := none }
           else { kind := .ok, code := 0, value := if q.getLsbD 1 = true then 0x01 else 0x00, terr := none }
         | .owReadBit =>
           { kind := .ok, code := 0, value := if q.getLsbD 5 = true then 0x01 else 0x00, terr := none }
         | .owTriplet _ => { kind := .ok, code := 0, value := q >>> 5, terr := none }
         | _ => { kind := .ok, code := 0, value := 0x00, terr := none }))) ∧
    (∀ w b : Byte, i = .owReadByte →
      s.env = .ok x :: .ok p :: .ok y :: .ok z :: .ok q :: .ok w :: .ok b :: rest →
      runSteps 9 s = .next (endedWith { s with requests := rs, env := rest }
        [.memWrite s.addr [0xE1, 0xF0] none, .memRead s.addr (.byte p), .memWrite s.addr frame none,
          .memWrite s.addr [0xE1, 0xF0] none, .memRead s.addr (.byte q),
          .memWrite s.addr [0xE1, 0xE1] none, .memRead s.addr (.byte b)]
        { kind := .ok, code := 0, value := b, terr := none }))

/-- R134, R148, R232: provided every port action completes, a request accepted by a sound controller ends with one
response after at most `requestBound` port actions. -/
def Obligations.EveryRequestEnds : Prop :=
  ∀ (s : State) (i : Instr) (r : Request) (rs : List Request),
    inv s = true → s.phase = .idle → s.requests = r :: rs → decodeRequest r = .ok i →
    requestBound i s.params.pollLimit ≤ s.env.length → (∀ c ∈ s.env, c ≠ .pending) →
    ∃ k t acts resp, runSteps k s = .next t ∧ k ≤ requestBound i s.params.pollLimit + 2 ∧
      t.phase = .idle ∧ t.requests = rs ∧ t.trace = s.trace ++ acts ++ [.respond resp] ∧
      responses acts = [] ∧ acts.length ≤ requestBound i s.params.pollLimit

/-- R134, R148: each port action that completes brings the request nearer its end. -/
def Obligations.EachCompletionMakesProgress : Prop :=
  ∀ (s : State) (i : Instr) (l : Label),
    inv s = true → RunsAt l s → inProgress s = .instr i → completion s ≠ .pending →
    ∃ t, step s = .next t ∧
      (t.phase = .idle ∨
        ∃ l', RunsAt l' t ∧ inProgress t = .instr i ∧
          actionsLeft i t.params.pollLimit (t.polls.getD 0) l' <
            actionsLeft i s.params.pollLimit (s.polls.getD 0) l)

/-- R83: the two pseudo-instructions. `SET_READ_POINTER` and then `REG_READ_BYTE` perform the port actions of
`READ_STATUS`, or of `READ_DATA_REGISTER`, but give two responses instead of one. -/
def Obligations.PseudoInstructionsAgree : Prop :=
  ∀ (s : State) (x b : Byte) (rest : List Completion), s.phase = .idle → s.env = .ok x :: .ok b :: rest →
    (s.requests = [{ word := 0x400#12, wbuf := none }] →
      ∃ t, runSteps 4 s = .next t ∧ t.trace = s.trace ++
        [.memWrite s.addr [0xE1, 0xF0] none, .memRead s.addr (.byte b), .respond (responseOk b)]) ∧
    (s.requests = [{ word := 0x2F0#12, wbuf := none }, { word := 0x300#12, wbuf := none }] →
      ∃ t, runSteps 6 s = .next t ∧ t.trace = s.trace ++
        [.memWrite s.addr [0xE1, 0xF0] none, .respond (responseOk 0x00), .memRead s.addr (.byte b),
          .respond (responseOk b)]) ∧
    (s.requests = [{ word := 0x500#12, wbuf := none }] →
      ∃ t, runSteps 4 s = .next t ∧ t.trace = s.trace ++
        [.memWrite s.addr [0xE1, 0xE1] none, .memRead s.addr (.byte b), .respond (responseOk b)]) ∧
    (s.requests = [{ word := 0x2E1#12, wbuf := none }, { word := 0x300#12, wbuf := none }] →
      ∃ t, runSteps 6 s = .next t ∧ t.trace = s.trace ++
        [.memWrite s.addr [0xE1, 0xE1] none, .respond (responseOk 0x00), .memRead s.addr (.byte b),
          .respond (responseOk b)])

/-! ### Errors and responses -/

/-- R181: at every transaction of every listing, but the two of the best-effort reset, `Err(e)` ends the request at
once with `I2CCommunicationError(e)`, the payload unchanged. -/
def Obligations.TransportErrorEndsRequest : Prop :=
  ∀ (i : Instr) (l : Label) (s : State) (e : TErr), RunsAt l s → completion s = .err e →
    (∀ bytes next h b, l ≠ .l4Write → listing i l = some (.write bytes next h b) →
      exec i s = .next (endedByTransport s (.memWrite s.addr bytes (some e)) e)) ∧
    (∀ tg next h, l ≠ .l4Read → listing i l = some (.read tg next h) →
      exec i s = .next (endedByTransport s (.memRead s.addr (.err e)) e)) ∧
    (∀ next k, s.polls = some k → listing i l = some (.poll next) →
      exec i s = .next (endedByTransport s (.memRead s.addr (.err e)) e)) ∧
    (∀ bytes next h b, l = .l4Write → listing i l = some (.write bytes next h b) →
      exec i s = .next (movedOn s (.memWrite s.addr bytes (some e)) .l5)) ∧
    (∀ tg next h, l = .l4Read → listing i l = some (.read tg next h) →
      exec i s = .next (movedOn s (.memRead s.addr (.err e)) .l5))

/-- R183: a request of a sound controller ends with no error but those its row of the table has; `BusyTimeout` only
in the strict variant (R186). -/
def Obligations.ErrorsPerOperation : Prop :=
  ∀ (s t : State) (i : Instr) (acts : List PortAction) (r : Response),
    inv s = true → s.phase = .run → inProgress s = .instr i → step s = .next t →
    t.trace = s.trace ++ acts → r ∈ responses acts → r.kind = .err →
    errorAllowed i s.params.busyTimeoutStrict r.code = true

/-- R82, R180: an OK response has code 0 and no transport error; an ERR response has value 0x00, a code from 1 to 5,
and a transport error exactly when the code is 2. -/
def Obligations.ResponseFormat : Prop :=
  ∀ (s t : State) (acts : List PortAction) (r : Response),
    step s = .next t → t.trace = s.trace ++ acts → r ∈ responses acts →
    (r.kind = .ok → r.code = 0 ∧ r.terr = none) ∧
    (r.kind = .err → r.value = 0x00 ∧ 1 ≤ r.code.toNat ∧ r.code.toNat ≤ 5 ∧
      (r.terr ≠ none ↔ r.code = 2))

/-- R71, R82: the response is given exactly once per request: in the step that takes the block from RUN to IDLE, and
in no other. -/
def Obligations.OneResponsePerRequest : Prop :=
  ∀ s t, step s = .next t →
    (responses t.trace).length =
      (responses s.trace).length + (if s.phase = .run ∧ t.phase = .idle then 1 else 0)

/-! ### State over all steps -/

/-- The invariant holds at construction (R42). -/
def Obligations.ResetIsSound : Prop := inv State.reset = true

/-- The invariant of Safety.lean is kept by every step (R21, R23, R24, R25). -/
def Obligations.StepsKeepSoundness : Prop :=
  ∀ s t, inv s = true → step s = .next t → inv t = true

/-- R24: the transient registers hold `⊥` at the start of every request and after its response; an interpretation of
a register that holds `⊥` faults; a sound controller never faults. -/
def Obligations.TransientRegisters : Prop :=
  (∀ s t, step s = .next t → s.phase = .idle → s.requests ≠ [] →
    t.stat = none ∧ t.data = none ∧ t.polls = none) ∧
  (∀ s t, step s = .next t → s.phase = .run → t.phase = .idle →
    t.stat = none ∧ t.data = none ∧ t.polls = none) ∧
  (∀ i l s f, RunsAt l s → listing i l = some (.judgeStat f) → s.stat = none →
    exec i s = .fault (.readBottom .stat)) ∧
  (∀ i l s f, RunsAt l s → listing i l = some (.judgeData f) → s.data = none →
    exec i s = .fault (.readBottom .data)) ∧
  (∀ i l s next, RunsAt l s → listing i l = some (.poll next) → s.polls = none →
    exec i s = .fault (.readBottom .polls)) ∧
  (∀ i l s again timeout onward, RunsAt l s → listing i l = some (.delay again timeout onward) →
    s.polls = none → exec i s = .fault (.readBottom .polls)) ∧
  (∀ s f, inv s = true → step s ≠ .fault f)

/-- R74, R190, R196: a sound controller is stopped by nothing but an ill-formed request presented while it is IDLE. -/
def Obligations.OnlyIllFormedRequestsStop : Prop :=
  ∀ s, inv s = true →
    (∃ t, step s = .next t) ∨
    (s.phase = .idle ∧ ∃ r rest why, s.requests = r :: rest ∧ decodeRequest r = .error why ∧
      step s = .refused (.illFormed why))

/-- R22: `addr` is `I2C_ADDR` at construction, no step writes it, and every transaction is addressed to it. The
parameters of R6 do not change either: that they are fields of State which no step writes is the model's own choice
(log 8). -/
def Obligations.AddressIsConstant : Prop :=
  State.reset.addr = Config.i2cAddr ∧
  ∀ s t, step s = .next t →
    t.addr = s.addr ∧ t.params = s.params ∧
    ∃ acts, t.trace = s.trace ++ acts ∧ addressedTo s.addr acts = true

/-- What an instruction leaves unchanged: the address and the parameters always; in RUN the request port; the request
registers until the response; the port actions already performed, to which at most two entries are added (R21, R22,
R25, R61). Which entries these are is said by `EachStepIsOnePortAction`. Two clauses rest on the model's own choices:
the parameters are fields of State which no step writes (log 8), and the bound is two entries because a failed
transaction and its response are one step (log 2). -/
def Obligations.InstructionFrame : Prop :=
  ∀ (i : Instr) (s t : State), exec i s = .next t →
    t.addr = s.addr ∧ t.params = s.params ∧
    (s.phase = .run → t.requests = s.requests) ∧
    (s.phase = .run → t.phase = .run → t.op = s.op ∧ t.arg = s.arg ∧ t.wbuf = s.wbuf) ∧
    ∃ acts, t.trace = s.trace ++ acts ∧ acts.length ≤ 2

/-- R21: within a request, `stat` is written only by a status read, `data` only by another read, `polls` only by a
poll or the start of a wait. That the start is the step of the wait's first pointer write, and not the step that reaches
L1 of R130, is the model's own choice (log 3). -/
def Obligations.TransientWriters : Prop :=
  ∀ (i : Instr) (l : Label) (s t : State), RunsAt l s → inProgress s = .instr i → step s = .next t →
    t.phase = .run →
    (t.stat ≠ s.stat → ∃ next, listing i l = some (.poll next) ∨ ∃ h, listing i l = some (.read .stat next h)) ∧
    (t.data ≠ s.data → ∃ next h, listing i l = some (.read .data next h)) ∧
    (t.polls ≠ s.polls →
      (∃ next, listing i l = some (.poll next)) ∨
      (∃ bytes next h, listing i l = some (.write bytes next h true)))

/-! ### The environment -/

/-- Log 4, the model's choice: the environment's answers are the listed ones in order, and free ones after them. -/
def Obligations.CompletionSource : Prop :=
  (∀ s c rest, s.env = c :: rest → completion s = c ∧ consume s = { s with env := rest }) ∧
  (∀ s, s.env = [] →
    completion s = Config.completion s.draws ∧ consume s = { s with draws := s.draws + 1 })

/-- R51, R52, U15: while the environment does not complete the port action, the block stays where it is. -/
def Obligations.BlockedUntilCompletion : Prop :=
  ∀ (s : State) (i : Instr) (l : Label), RunsAt l s → inProgress s = .instr i → completion s = .pending →
    (∀ bytes next h b, listing i l = some (.write bytes next h b) → step s = .next (consume s)) ∧
    (∀ tg next h, listing i l = some (.read tg next h) → step s = .next (consume s)) ∧
    (∀ next k, s.polls = some k → listing i l = some (.poll next) → step s = .next (consume s)) ∧
    (∀ again timeout onward k, s.polls = some k → listing i l = some (.delay again timeout onward) →
      step s = .next (consume s))

/-- R30, R37, R39: a chip that keeps the contract of Machine/Chip.lean and is idle when the request comes has its
status register reported by `READ_STATUS` and its data register by `READ_DATA_REGISTER`. -/
def Obligations.ChipRegistersReported : Prop :=
  ∀ (s : State) (rs : List Request) (x b : Byte) (rest : List Completion) (c0 c1 c2 : Chip),
    s.phase = .idle → s.env = .ok x :: .ok b :: rest → chipBusy c0 = false →
    chipContract c1 (.memRead s.addr (.byte b)) c2 →
    (s.requests = { word := 0x400#12, wbuf := none } :: rs →
      chipContract c0 (.memWrite s.addr [0xE1, 0xF0] none) c1 →
      runSteps 4 s = .next (endedWith { s with requests := rs, env := rest }
        [.memWrite s.addr [0xE1, 0xF0] none, .memRead s.addr (.byte c1.status)]
        { kind := .ok, code := 0, value := c1.status, terr := none })) ∧
    (s.requests = { word := 0x500#12, wbuf := none } :: rs →
      chipContract c0 (.memWrite s.addr [0xE1, 0xE1] none) c1 →
      runSteps 4 s = .next (endedWith { s with requests := rs, env := rest }
        [.memWrite s.addr [0xE1, 0xE1] none, .memRead s.addr (.byte c1.data)]
        { kind := .ok, code := 0, value := c1.data, terr := none }))

/-- R32, R34, R37, with R82, R141, R142, R144, R146: if the chip has finished the primitive's bus operation as the
contract of Machine/Chip.lean says, and the register interpreted holds the chip's own, the response reports the bus's
answer: presence or a short, the bit, the two bits and the direction taken, the byte received. -/
def Obligations.ChipResultsReported : Prop :=
  ∀ (s : State) (a : BusAnswer) (c : Chip), RunsAt .int s →
    (chipCompleted [0xB4] a c → s.stat = some c.status →
      exec .owReset s = .next (endedWith s []
        (if a.shorted = true then { kind := .err, code := 4, value := 0x00, terr := none }
         else { kind := .ok, code := 0, value := if a.presence = true then 0x01 else 0x00, terr := none }))) ∧
    (chipCompleted [0x87, 0xFF] a c → s.stat = some c.status →
      exec .owReadBit s = .next (endedWith s []
        { kind := .ok, code := 0, value := if a.bit = true then 0x01 else 0x00, terr := none })) ∧
    (∀ d : Bool, chipCompleted [0x78, if d then 0xFF else 0x00] a c → s.stat = some c.status →
      exec (.owTriplet d) s = .next (endedWith s []
        { kind := .ok, code := 0, terr := none
          value := (if a.direction = true then 0x04 else 0x00) ||| (if a.complement = true then 0x02 else 0x00) |||
            (if a.bit = true then 0x01 else 0x00) })) ∧
    (chipCompleted [0x96] a c → s.data = some c.data →
      exec .owReadByte s = .next (endedWith s [] { kind := .ok, code := 0, value := a.byte, terr := none }))

/-- R37, R39, R144, with the contract of Machine/Chip.lean (log 15): once the chip has finished a Read Byte, its data
register still holds the byte received when `OW_READ_BYTE` fetches it, so from the last poll of the post-wait on the
request ends with that byte. -/
def Obligations.ReceivedByteFetched : Prop :=
  ∀ (s : State) (a : BusAnswer) (c c0 c1 c2 : Chip) (k : Nat) (p x b : Byte) (rest : List Completion),
    RunsAt (.wait .post .read) s → inProgress s = .instr .owReadByte → s.polls = some k →
    s.env = .ok p :: .ok x :: .ok b :: rest →
    chipCompleted [0x96] a c → c.pointer = 0xF0 → chipContract c (.memRead s.addr (.byte p)) c0 →
    chipContract c0 (.memWrite s.addr [0xE1, 0xE1] none) c1 → chipContract c1 (.memRead s.addr (.byte b)) c2 →
    runSteps 4 s = .next (endedWith { s with env := rest }
      [.memRead s.addr (.byte p), .memWrite s.addr [0xE1, 0xE1] none, .memRead s.addr (.byte b)]
      { kind := .ok, code := 0, value := a.byte, terr := none })
end

