-- ==== Sys2Proof/Laws/Chip.lean ====
section
/-! SUPPORT. What the chip's contract gives for an idle chip, once per port action. -/

namespace Sys2Proof.Machine

section

variable {c c' : Chip} {a : I2cAddress}

/-- A pointer frame of a listed code to an idle chip. -/
theorem chipContract_select {p : Byte} (hs : listedSelect p = true) (hc : chipBusy c = false)
    (h : chipContract c (.memWrite a [0xE1, p] none) c') :
    chipBusy c' = false ∧ c'.data = c.data ∧ c'.config = c.config ∧ c'.pointer = p := h hc hs

/-- A read of an idle chip whose pointer is at the status register. -/
theorem chipContract_readStatus {b : Byte} (hc : chipBusy c = false) (hp : c.pointer = selectStatus)
    (h : chipContract c (.memRead a (.byte b)) c') : b = c.status ∧ chipStays c c' :=
  ⟨(h hc).1 _ (by simp [chipSelected, hp]), (h hc).2⟩

/-- A read of an idle chip whose pointer is at the data register. -/
theorem chipContract_readData {b : Byte} (hc : chipBusy c = false) (hp : c.pointer = selectData)
    (h : chipContract c (.memRead a (.byte b)) c') : b = c.data ∧ chipStays c c' :=
  ⟨(h hc).1 _ (by simp [chipSelected, hp, selectStatus, selectData]), (h hc).2⟩

/-- An idle chip over a delay. -/
theorem chipContract_delay {us : Nat} (hc : chipBusy c = false) (h : chipContract c (.delay us) c') :
    chipStays c c' := h hc

/-- An idle chip across a response. -/
theorem chipContract_respond {r : Response} (hc : chipBusy c = false) (h : chipContract c (.respond r) c') :
    chipStays c c' := h hc

/-- The two payloads a Single Bit or a Triplet request sends are listed. -/
@[simp] theorem listedPayload_bitPay (v : Bool) : listedPayload (bitPay v) = true := by cases v <;> rfl

end

end Sys2Proof.Machine
end

