-- ==== Sys2Proof/Laws/State.lean ====
section
/-! SUPPORT. What each update of the state does to each field, once: later proofs cite these and unfold no record. -/

namespace Sys2Proof.Machine

variable (s : State)

/-! `consume` changes `env` or `draws` only. -/

@[simp] theorem consume_addr : (consume s).addr = s.addr := by unfold consume; split <;> rfl
@[simp] theorem consume_phase : (consume s).phase = s.phase := by unfold consume; split <;> rfl
@[simp] theorem consume_step : (consume s).step = s.step := by unfold consume; split <;> rfl
@[simp] theorem consume_op : (consume s).op = s.op := by unfold consume; split <;> rfl
@[simp] theorem consume_arg : (consume s).arg = s.arg := by unfold consume; split <;> rfl
@[simp] theorem consume_wbuf : (consume s).wbuf = s.wbuf := by unfold consume; split <;> rfl
@[simp] theorem consume_polls : (consume s).polls = s.polls := by unfold consume; split <;> rfl
@[simp] theorem consume_stat : (consume s).stat = s.stat := by unfold consume; split <;> rfl
@[simp] theorem consume_data : (consume s).data = s.data := by unfold consume; split <;> rfl
@[simp] theorem consume_params : (consume s).params = s.params := by unfold consume; split <;> rfl
@[simp] theorem consume_requests : (consume s).requests = s.requests := by unfold consume; split <;> rfl
@[simp] theorem consume_trace : (consume s).trace = s.trace := by unfold consume; split <;> rfl
@[simp] theorem consume_env : (consume s).env = s.env.tail := by unfold consume; split <;> simp_all

/-! `record` changes `trace` only. -/

@[simp] theorem record_addr (a : PortAction) : (record a s).addr = s.addr := rfl
@[simp] theorem record_phase (a : PortAction) : (record a s).phase = s.phase := rfl
@[simp] theorem record_step (a : PortAction) : (record a s).step = s.step := rfl
@[simp] theorem record_op (a : PortAction) : (record a s).op = s.op := rfl
@[simp] theorem record_arg (a : PortAction) : (record a s).arg = s.arg := rfl
@[simp] theorem record_wbuf (a : PortAction) : (record a s).wbuf = s.wbuf := rfl
@[simp] theorem record_polls (a : PortAction) : (record a s).polls = s.polls := rfl
@[simp] theorem record_stat (a : PortAction) : (record a s).stat = s.stat := rfl
@[simp] theorem record_data (a : PortAction) : (record a s).data = s.data := rfl
@[simp] theorem record_params (a : PortAction) : (record a s).params = s.params := rfl
@[simp] theorem record_requests (a : PortAction) : (record a s).requests = s.requests := rfl
@[simp] theorem record_env (a : PortAction) : (record a s).env = s.env := rfl
@[simp] theorem record_draws (a : PortAction) : (record a s).draws = s.draws := rfl
@[simp] theorem record_trace (a : PortAction) : (record a s).trace = s.trace ++ [a] := rfl

/-! `clearRequest` sets the registers of R24 and R25 to `⊥`. -/

@[simp] theorem clearRequest_addr : (clearRequest s).addr = s.addr := rfl
@[simp] theorem clearRequest_phase : (clearRequest s).phase = Phase.idle := rfl
@[simp] theorem clearRequest_step : (clearRequest s).step = none := rfl
@[simp] theorem clearRequest_op : (clearRequest s).op = none := rfl
@[simp] theorem clearRequest_arg : (clearRequest s).arg = none := rfl
@[simp] theorem clearRequest_wbuf : (clearRequest s).wbuf = none := rfl
@[simp] theorem clearRequest_polls : (clearRequest s).polls = none := rfl
@[simp] theorem clearRequest_stat : (clearRequest s).stat = none := rfl
@[simp] theorem clearRequest_data : (clearRequest s).data = none := rfl
@[simp] theorem clearRequest_params : (clearRequest s).params = s.params := rfl
@[simp] theorem clearRequest_requests : (clearRequest s).requests = s.requests := rfl
@[simp] theorem clearRequest_env : (clearRequest s).env = s.env := rfl
@[simp] theorem clearRequest_draws : (clearRequest s).draws = s.draws := rfl
@[simp] theorem clearRequest_trace : (clearRequest s).trace = s.trace := rfl

/-! `respond` records the response and clears (R182). -/

@[simp] theorem respond_addr (r : Response) : (respond r s).addr = s.addr := rfl
@[simp] theorem respond_phase (r : Response) : (respond r s).phase = Phase.idle := rfl
@[simp] theorem respond_step (r : Response) : (respond r s).step = none := rfl
@[simp] theorem respond_op (r : Response) : (respond r s).op = none := rfl
@[simp] theorem respond_arg (r : Response) : (respond r s).arg = none := rfl
@[simp] theorem respond_wbuf (r : Response) : (respond r s).wbuf = none := rfl
@[simp] theorem respond_polls (r : Response) : (respond r s).polls = none := rfl
@[simp] theorem respond_stat (r : Response) : (respond r s).stat = none := rfl
@[simp] theorem respond_data (r : Response) : (respond r s).data = none := rfl
@[simp] theorem respond_params (r : Response) : (respond r s).params = s.params := rfl
@[simp] theorem respond_requests (r : Response) : (respond r s).requests = s.requests := rfl
@[simp] theorem respond_env (r : Response) : (respond r s).env = s.env := rfl
@[simp] theorem respond_draws (r : Response) : (respond r s).draws = s.draws := rfl
@[simp] theorem respond_trace (r : Response) : (respond r s).trace = s.trace ++ [.respond r] := rfl

/-! `accept` writes the request registers (R71). -/

section

variable (op : BitVec 4) (arg : Byte) (wbuf : Option (List Byte)) (first : Label)

@[simp] theorem accept_addr : (accept op arg wbuf first s).addr = s.addr := rfl
@[simp] theorem accept_phase : (accept op arg wbuf first s).phase = Phase.run := rfl
@[simp] theorem accept_step : (accept op arg wbuf first s).step = some first := rfl
@[simp] theorem accept_op : (accept op arg wbuf first s).op = some op := rfl
@[simp] theorem accept_arg : (accept op arg wbuf first s).arg = some arg := rfl
@[simp] theorem accept_wbuf : (accept op arg wbuf first s).wbuf = wbuf := rfl
@[simp] theorem accept_polls : (accept op arg wbuf first s).polls = none := rfl
@[simp] theorem accept_stat : (accept op arg wbuf first s).stat = none := rfl
@[simp] theorem accept_data : (accept op arg wbuf first s).data = none := rfl
@[simp] theorem accept_params : (accept op arg wbuf first s).params = s.params := rfl
@[simp] theorem accept_requests : (accept op arg wbuf first s).requests = s.requests.tail := rfl
@[simp] theorem accept_env : (accept op arg wbuf first s).env = s.env := rfl
@[simp] theorem accept_draws : (accept op arg wbuf first s).draws = s.draws := rfl
@[simp] theorem accept_trace : (accept op arg wbuf first s).trace = s.trace := rfl

end

end Sys2Proof.Machine
end

