-- ==== Sys2Proof/Laws/Ops.lean ====
section
/-! SUPPORT. Everything each shared operation can do, said once. -/

namespace Sys2Proof.Machine

/-- A word `{op, arg}` gives its operation code back (R71). -/
@[simp] theorem requestOp_requestWord (op : BitVec 4) (arg : Byte) (w : Option (List Byte)) :
    requestOp { word := requestWord op arg, wbuf := w } = op := by
  revert op arg; simp only [requestOp, requestWord]; decide

/-- A word `{op, arg}` gives its argument back (R71). -/
@[simp] theorem requestArg_requestWord (op : BitVec 4) (arg : Byte) (w : Option (List Byte)) :
    requestArg { word := requestWord op arg, wbuf := w } = arg := by
  revert op arg; simp only [requestArg, requestWord]; decide

/-- Every request word is `{op, arg}` of its own fields (R71). -/
theorem requestWord_fields (r : Request) : requestWord (requestOp r) (requestArg r) = r.word := by
  obtain ⟨w, b⟩ := r
  simp only [requestOp, requestArg, requestWord]
  revert w
  decide

theorem raiseError_transport (e : TErr) (s : State) (a : PortAction) :
    raiseError (.i2cCommunication e) (record a (consume s)) = endedByTransport s a e := by
  simp [raiseError, respond, clearRequest, record, endedByTransport, endedWith, responseErr, errorCode,
    errorTerr]

theorem respond_eq_endedWith (r : Response) (s : State) : respond r s = endedWith s [] r := by
  simp [respond, clearRequest, record, endedWith]

section

variable {s : State}

theorem memWrite_ok {x : Byte} (hc : completion s = .ok x) (bytes : List Byte) (next : Label) (h : OnErr)
    (begins : Bool) :
    memWrite bytes next h begins s =
      { movedOn s (.memWrite s.addr bytes none) next with polls := if begins then some 0 else s.polls } := by
  simp [memWrite, hc, record, movedOn]

theorem memWrite_err {e : TErr} (hc : completion s = .err e) (bytes : List Byte) (next : Label)
    (begins : Bool) :
    memWrite bytes next .raise begins s = endedByTransport s (.memWrite s.addr bytes (some e)) e := by
  simp [memWrite, hc, failTransaction, raiseError_transport]

theorem memWrite_err_discard {e : TErr} (hc : completion s = .err e) (bytes : List Byte) (next l : Label)
    (begins : Bool) :
    memWrite bytes next (.discard l) begins s = movedOn s (.memWrite s.addr bytes (some e)) l := by
  simp [memWrite, hc, failTransaction, record, movedOn]

theorem memWrite_pending (hc : completion s = .pending) (bytes : List Byte) (next : Label) (h : OnErr)
    (begins : Bool) : memWrite bytes next h begins s = consume s := by
  simp [memWrite, hc]

theorem memRead_ok {b : Byte} (hc : completion s = .ok b) (t : ReadTarget) (next : Byte → Label) (h : OnErr) :
    memRead t next h s = writeTarget t b (movedOn s (.memRead s.addr (.byte b)) (next b)) := by
  cases t <;> simp [memRead, hc, record, movedOn, writeTarget]

theorem memRead_err {e : TErr} (hc : completion s = .err e) (t : ReadTarget) (next : Byte → Label) :
    memRead t next .raise s = endedByTransport s (.memRead s.addr (.err e)) e := by
  simp [memRead, hc, failTransaction, raiseError_transport]

theorem memRead_err_discard {e : TErr} (hc : completion s = .err e) (t : ReadTarget) (next : Byte → Label)
    (l : Label) : memRead t next (.discard l) s = movedOn s (.memRead s.addr (.err e)) l := by
  simp [memRead, hc, failTransaction, record, movedOn]

theorem memRead_pending (hc : completion s = .pending) (t : ReadTarget) (next : Byte → Label) (h : OnErr) :
    memRead t next h s = consume s := by
  simp [memRead, hc]

theorem pollRead_ok {b : Byte} (hc : completion s = .ok b) (k : Nat) (next : Byte → Label) :
    pollRead k next s =
      { movedOn s (.memRead s.addr (.byte b)) (next b) with stat := some b, polls := some (k + 1) } := by
  simp [pollRead, hc, record, movedOn]

theorem pollRead_err {e : TErr} (hc : completion s = .err e) (k : Nat) (next : Byte → Label) :
    pollRead k next s = endedByTransport s (.memRead s.addr (.err e)) e := by
  simp [pollRead, hc, failTransaction, raiseError_transport]

theorem pollRead_pending (hc : completion s = .pending) (k : Nat) (next : Byte → Label) :
    pollRead k next s = consume s := by
  simp [pollRead, hc]

theorem pollDelay_done (hc : completion s ≠ .pending) (k : Nat) (again timeout onward : Label) :
    pollDelay k again timeout onward s =
      movedOn s (.delay s.params.pollDelayUs)
        (if k < s.params.pollLimit then again
         else if s.params.busyTimeoutStrict then timeout else onward) := by
  cases h : completion s <;> simp_all [pollDelay, record, movedOn]

theorem pollDelay_pending (hc : completion s = .pending) (k : Nat) (again timeout onward : Label) :
    pollDelay k again timeout onward s = consume s := by
  simp [pollDelay, hc]

/-- Neither a response nor the acceptance of a request: a transaction or a delay. -/
def isBusAction : PortAction → Bool
  | .memWrite _ _ _ | .memRead _ _ | .delay _ => true
  | .respond _ => false

/-- The action is a transaction or a delay: it draws a completion. -/
def drawsCompletion : Action → Bool
  | .write _ _ _ _ | .read _ _ _ | .poll _ | .delay _ _ _ => true
  | .done _ | .fail _ | .judgeStat _ | .judgeData _ => false

/-- The action raises `e` of its own, not for a failed transaction. -/
def raisesError (a : Action) (s : State) (e : OpError) : Prop :=
  a = .fail e ∨
  (∃ f b, a = .judgeStat f ∧ s.stat = some b ∧ f b = .raise e) ∨
  (∃ f b, a = .judgeData f ∧ s.data = some b ∧ f b = .raise e)

/-- Everything one performed action can do: the block stays blocked; it goes on to another label after one port
action; it ends the request; or a failed transaction ends it. -/
theorem perform_next {a : Action} {t : State} (h : perform a s = .next t) :
    (drawsCompletion a = true ∧ completion s = .pending ∧ t = consume s) ∨
    (drawsCompletion a = true ∧ completion s ≠ .pending ∧ ∃ p l, isBusAction p = true ∧
      addressedTo s.addr [p] = true ∧
      t = { movedOn s p l with polls := t.polls, stat := t.stat, data := t.data }) ∨
    (drawsCompletion a = false ∧ ∃ v, t = endedWith s [] (responseOk v)) ∨
    (drawsCompletion a = false ∧ ∃ e, raisesError a s e ∧ t = endedWith s [] (responseErr e)) ∨
    (drawsCompletion a = true ∧ ∃ p e, completion s = .err e ∧ isBusAction p = true ∧
      addressedTo s.addr [p] = true ∧ t = endedByTransport s p e) := by
  cases a with
  | write bytes next h' begins =>
    simp only [perform, Host.Outcome.next.injEq] at h
    subst h
    cases hc : completion s with
    | ok x =>
      refine .inr (.inl ⟨rfl, by simp, .memWrite s.addr bytes none, next, rfl, by simp [addressedTo], ?_⟩)
      rw [memWrite_ok hc]
    | pending => exact .inl ⟨rfl, rfl, memWrite_pending hc ..⟩
    | err e =>
      cases h' with
      | raise =>
        exact .inr (.inr (.inr (.inr ⟨rfl, .memWrite s.addr bytes (some e), e, rfl, rfl,
          by simp [addressedTo], memWrite_err hc ..⟩)))
      | discard l =>
        refine .inr (.inl ⟨rfl, by simp, .memWrite s.addr bytes (some e), l, rfl, by simp [addressedTo], ?_⟩)
        rw [memWrite_err_discard hc]
  | read tg next h' =>
    simp only [perform, Host.Outcome.next.injEq] at h
    subst h
    cases hc : completion s with
    | ok x =>
      refine .inr (.inl ⟨rfl, by simp, .memRead s.addr (.byte x), next x, rfl, by simp [addressedTo], ?_⟩)
      rw [memRead_ok hc]; cases tg <;> rfl
    | pending => exact .inl ⟨rfl, rfl, memRead_pending hc ..⟩
    | err e =>
      cases h' with
      | raise =>
        exact .inr (.inr (.inr (.inr ⟨rfl, .memRead s.addr (.err e), e, rfl, rfl, by simp [addressedTo],
          memRead_err hc ..⟩)))
      | discard l =>
        refine .inr (.inl ⟨rfl, by simp, .memRead s.addr (.err e), l, rfl, by simp [addressedTo], ?_⟩)
        rw [memRead_err_discard hc]
  | poll next =>
    cases hk : s.polls with
    | none => simp [perform, withRegister, hk] at h
    | some k =>
      simp only [perform, withRegister, hk, Host.Outcome.next.injEq] at h
      subst h
      cases hc : completion s with
      | ok x =>
        refine .inr (.inl ⟨rfl, by simp, .memRead s.addr (.byte x), next x, rfl, by simp [addressedTo], ?_⟩)
        rw [pollRead_ok hc]
      | pending => exact .inl ⟨rfl, rfl, pollRead_pending hc ..⟩
      | err e =>
        exact .inr (.inr (.inr (.inr ⟨rfl, .memRead s.addr (.err e), e, rfl, rfl, by simp [addressedTo],
          pollRead_err hc ..⟩)))
  | delay again timeout onward =>
    cases hk : s.polls with
    | none => simp [perform, withRegister, hk] at h
    | some k =>
      simp only [perform, withRegister, hk, Host.Outcome.next.injEq] at h
      subst h
      by_cases hc : completion s = .pending
      · exact .inl ⟨rfl, hc, pollDelay_pending hc ..⟩
      · have hd := pollDelay_done hc k again timeout onward
        exact .inr (.inl ⟨rfl, hc, .delay s.params.pollDelayUs, _, rfl, by simp [addressedTo], by rw [hd]⟩)
  | done v =>
    simp only [perform, Host.Outcome.next.injEq, respond_eq_endedWith] at h
    exact .inr (.inr (.inl ⟨rfl, v, h.symm⟩))
  | fail e =>
    simp only [perform, Host.Outcome.next.injEq, raiseError, respond_eq_endedWith] at h
    exact .inr (.inr (.inr (.inl ⟨rfl, e, .inl rfl, h.symm⟩)))
  | judgeStat f =>
    cases hb : s.stat with
    | none => simp [perform, withRegister, hb] at h
    | some b =>
      simp only [perform, withRegister, hb, Host.Outcome.next.injEq, conclude, raiseError,
        respond_eq_endedWith] at h
      split at h
      · next v _ => exact .inr (.inr (.inl ⟨rfl, v, h.symm⟩))
      · next e he => exact .inr (.inr (.inr (.inl ⟨rfl, e, .inr (.inl ⟨f, b, rfl, hb, he⟩), h.symm⟩)))
  | judgeData f =>
    cases hb : s.data with
    | none => simp [perform, withRegister, hb] at h
    | some b =>
      simp only [perform, withRegister, hb, Host.Outcome.next.injEq, conclude, raiseError,
        respond_eq_endedWith] at h
      split at h
      · next v _ => exact .inr (.inr (.inl ⟨rfl, v, h.symm⟩))
      · next e he => exact .inr (.inr (.inr (.inl ⟨rfl, e, .inr (.inr ⟨f, b, rfl, hb, he⟩), h.symm⟩)))

/-- A request in RUN performs the action its listing names. -/
theorem runRequest_run {op : BitVec 4} {arg : Byte} {wbuf : Option (List Byte)} {first l : Label}
    {lst : Label → Option Action} (h : RunsAt l s) :
    runRequest op arg wbuf first lst s =
      match lst l with
      | none => .fault .unlistedAction
      | some a => perform a s := by
  obtain ⟨hp, hs⟩ := h
  cases hl : lst l <;> simp [runRequest, hp, performAt, withRegister, hs, hl]

theorem runRequest_idle {op : BitVec 4} {arg : Byte} {wbuf : Option (List Byte)} {first : Label}
    {lst : Label → Option Action} (h : s.phase = .idle) :
    runRequest op arg wbuf first lst s = .next (accept op arg wbuf first s) := by
  simp [runRequest, h]

/-- Where `runRequest` answers a next state, it accepted the request or performed a listed action. -/
theorem runRequest_next {op : BitVec 4} {arg : Byte} {wbuf : Option (List Byte)} {first : Label}
    {lst : Label → Option Action} {t : State} (h : runRequest op arg wbuf first lst s = .next t) :
    (s.phase = .idle ∧ t = accept op arg wbuf first s) ∨
    (s.phase = .run ∧ ∃ l a, s.step = some l ∧ lst l = some a ∧ perform a s = .next t) := by
  cases hp : s.phase with
  | idle =>
    rw [runRequest_idle hp] at h
    cases h
    exact .inl ⟨rfl, rfl⟩
  | run =>
    cases hs : s.step with
    | none => simp [runRequest, hp, performAt, withRegister, hs] at h
    | some l =>
      rw [runRequest_run ⟨hp, hs⟩] at h
      cases hl : lst l with
      | none => simp [hl] at h
      | some a => exact .inr ⟨rfl, l, a, rfl, hl, by simpa [hl] using h⟩

/-- Where `emitFrame` answers a next state, it performed the write the listing in progress names. -/
theorem emitFrame_next {bytes : List Byte} {t : State} (h : emitFrame bytes s = .next t) :
    ∃ i l next he begins, inProgress s = .instr i ∧ s.step = some l ∧
      listing i l = some (.write bytes next he begins) ∧
      perform (.write bytes next he begins) s = .next t := by
  unfold emitFrame at h
  split at h
  · cases h
  · cases h
  · cases h
  · next i hi =>
    cases hs : s.step with
    | none => simp [withRegister, hs] at h
    | some l =>
      simp only [withRegister, hs] at h
      split at h
      · next named next' he begins hl =>
        split at h
        · next hn => subst hn; exact ⟨i, l, next', he, begins, hi, rfl, hl, by simpa [perform] using h⟩
        · cases h
      · cases h
      · cases h

/-- A frame of the listing in progress is that listing's action. -/
theorem emitFrame_named {i : Instr} {l : Label} {bytes : List Byte} {next : Label} {he : OnErr} {begins : Bool}
    (hi : inProgress s = .instr i) (hs : s.step = some l)
    (hl : listing i l = some (.write bytes next he begins)) :
    emitFrame bytes s = perform (.write bytes next he begins) s := by
  simp [emitFrame, hi, withRegister, hs, hl, perform]

end

end Sys2Proof.Machine
end

