-- ==== Sys2Proof/Laws/Exec.lean ====
section
/-! SUPPORT. What `exec`, `fetch` and `step` can do, said once over all instructions. -/

namespace Sys2Proof.Machine

/-- The sixteen requests; the other eight instructions are frames. -/
def isRequest : Instr → Bool
  | .frameDrst | .frameWcfg _ | .frame1wrs | .frame1wsb _ | .frame1wrb | .frame1wwb _ | .frame1wt _
  | .frameSrp _ => false
  | _ => true

/-- Operation code, argument and payload of a request (R72); what `accept` writes. -/
def requestFields : Instr → BitVec 4 × Byte × Option (List Byte)
  | .deviceReset => (0x0, 0x00, none)
  | .writeConfig c => (0x1, zext8 c, none)
  | .setReadPointer p => (0x2, p, none)
  | .regReadByte => (0x3, 0x00, none)
  | .readStatus => (0x4, 0x00, none)
  | .readDataRegister => (0x5, 0x00, none)
  | .writeBytes n bytes => (0x6, n, some bytes)
  | .busyWait => (0x7, 0x00, none)
  | .owReset => (0x8, 0x00, none)
  | .owReadBit => (0x9, 0x00, none)
  | .owWriteBit v => (0xA, bitByte v, none)
  | .owReadByte => (0xB, 0x00, none)
  | .owWriteByte v => (0xC, v, none)
  | .owTriplet d => (0xD, bitByte d, none)
  | .searchAll => (0xE, 0x00, none)
  | .searchAlarm => (0xF, 0x00, none)
  | _ => (0x0, 0x00, none)

/-- Every request's meaning is `runRequest` over its own listing. -/
theorem exec_request {i : Instr} (h : isRequest i = true) (s : State) :
    exec i s = runRequest (requestFields i).1 (requestFields i).2.1 (requestFields i).2.2 (firstLabel i)
      (listing i) s := by
  cases i <;> first | rfl | cases h

/-- Every frame's meaning is `emitFrame` of bytes that decode to it. -/
theorem exec_frame {i : Instr} (h : isRequest i = false) :
    ∃ bytes, encode i = .frame bytes ∧ ∀ s, exec i s = emitFrame bytes s := by
  cases i <;> first | exact ⟨_, rfl, fun _ => rfl⟩ | cases h

section

variable {s : State} {i : Instr}

/-- A request at a label of its listing performs the action named there. -/
theorem exec_at {l : Label} {a : Action} (hr : isRequest i = true) (h : RunsAt l s)
    (hl : listing i l = some a) : exec i s = perform a s := by
  rw [exec_request hr, runRequest_run h, hl]

/-- In IDLE a request is accepted. -/
theorem exec_idle (hr : isRequest i = true) (h : s.phase = .idle) :
    exec i s = .next (accept (requestFields i).1 (requestFields i).2.1 (requestFields i).2.2
      (firstLabel i) s) := by
  rw [exec_request hr, runRequest_idle h]

/-- Where `exec` answers a next state, it accepted a request in IDLE or performed the action a listing names at
`x[step]`. -/
theorem exec_next {t : State} (h : exec i s = .next t) :
    (s.phase = .idle ∧ t = accept (requestFields i).1 (requestFields i).2.1 (requestFields i).2.2
      (firstLabel i) s) ∨
    (∃ j l a, s.step = some l ∧ listing j l = some a ∧ perform a s = .next t) := by
  cases hr : isRequest i with
  | true =>
    rw [exec_request hr] at h
    rcases runRequest_next h with hi | ⟨_, l, a, hs, hl, hp⟩
    · exact .inl hi
    · exact .inr ⟨i, l, a, hs, hl, hp⟩
  | false =>
    obtain ⟨bytes, _, he⟩ := exec_frame hr
    rw [he] at h
    obtain ⟨j, l, nx, hd, b, _, hs, hl, hp⟩ := emitFrame_next h
    exact .inr ⟨j, l, _, hs, hl, hp⟩

/-- What `frameOf` finds is the frame the action's write carries. -/
theorem frameOf_some {a : Option Action} {f : Instr} (h : frameOf a = some f) :
    ∃ bytes next he begins, a = some (.write bytes next he begins) ∧ decodeWholeFrame bytes = .ok f := by
  unfold frameOf at h
  split at h
  · next bytes next he begins =>
    split at h
    · next f' hf => cases h; exact ⟨bytes, next, he, begins, rfl, hf⟩
    · cases h
  · cases h
  · cases h

/-- A byte list that decodes to a frame is that frame's encoding. -/
theorem decodeWholeFrame_ok {bytes : List Byte} (h : decodeWholeFrame bytes = .ok i) :
    isRequest i = false ∧ encode i = .frame bytes := by
  unfold decodeWholeFrame at h
  split at h
  · cases h
  · next j hj =>
    cases h
    unfold decodeFrame at hj
    split at hj
    · cases hj
    · next cmd rest =>
      split at hj <;> first
        | cases hj; done
        | (cases hj; exact ⟨rfl, rfl⟩)
        | (cases rest with
            | nil => cases hj
            | cons b r => cases hj; exact ⟨rfl, rfl⟩)
  · cases h

/-- The request decoder gives requests, never frames. -/
theorem decodeRequest_isRequest {r : Request} (h : decodeRequest r = .ok i) : isRequest i = true := by
  unfold decodeRequest at h
  split at h
  · unfold decodeWriteBytes at h
    split at h
    · cases h
    · split at h
      · cases h
      · split at h <;> cases h; rfl
  · split at h
    · cases h
    · unfold decodeOperation at h
      split at h <;>
        first
        | (cases h; rfl)
        | (simp only [decodeNoArgument, decodeConfig, decodeBit, decodeWriteBytes] at h
           split at h <;> cases h <;> rfl)

/-- The request in progress is a request. -/
theorem inProgress_isRequest (h : inProgress s = .instr i) : isRequest i = true := by
  unfold inProgress at h
  split at h
  · cases h
  · split at h
    · cases h
    · split at h
      · cases h
      · split at h
        · next j hj => cases h; exact decodeRequest_isRequest hj
        · cases h

/-- In RUN, whatever instruction `fetch` finds, the step is the step of the request in progress: a frame is run
as the write its listing names. -/
theorem step_run {l : Label} {a : Action} (h : RunsAt l s) (hi : inProgress s = .instr i)
    (hl : listing i l = some a) : step s = perform a s := by
  obtain ⟨hp, hs⟩ := h
  have hr := inProgress_isRequest hi
  have ha : actionAt i s = some a := by simp [actionAt, hs, hl]
  cases hf : frameOf (some a) with
  | none =>
    have : fetch s = .instr i := by simp [fetch, hp, hi, ha, hf]
    rw [step, this]
    exact exec_at hr ⟨hp, hs⟩ hl
  | some f =>
    have : fetch s = .instr f := by simp [fetch, hp, hi, ha, hf]
    rw [step, this]
    obtain ⟨bytes, next, he, begins, hw, hd⟩ := frameOf_some hf
    cases hw
    obtain ⟨hff, hen⟩ := decodeWholeFrame_ok hd
    obtain ⟨bytes', hen', hex⟩ := exec_frame hff
    rw [hen] at hen'
    cases hen'
    simp only
    rw [hex, emitFrame_named hi hs hl]

/-- In IDLE with a request presented that decodes, the step accepts it. -/
theorem step_idle {r : Request} {rest : List Request} (h : s.phase = .idle) (hq : s.requests = r :: rest)
    (hd : decodeRequest r = .ok i) :
    step s = .next (accept (requestFields i).1 (requestFields i).2.1 (requestFields i).2.2
      (firstLabel i) s) := by
  have : fetch s = .instr i := by simp [fetch, h, hq, hd]
  rw [step, this]
  exact exec_idle (decodeRequest_isRequest hd) h

/-- Everything a step can do when it answers a next state. -/
theorem step_next {t : State} (h : step s = .next t) :
    (s.phase = .idle ∧ s.requests = [] ∧ t = s) ∨
    (s.phase = .idle ∧ ∃ r rest i, s.requests = r :: rest ∧ decodeRequest r = .ok i ∧
      t = accept (requestFields i).1 (requestFields i).2.1 (requestFields i).2.2 (firstLabel i) s) ∨
    (s.phase = .run ∧ ∃ i l a, inProgress s = .instr i ∧ s.step = some l ∧ listing i l = some a ∧
      perform a s = .next t) := by
  cases hp : s.phase with
  | idle =>
    cases hq : s.requests with
    | nil =>
      have : fetch s = .nothing := by simp [fetch, hp, hq]
      rw [step, this] at h
      cases h
      exact .inl ⟨rfl, rfl, rfl⟩
    | cons r rest =>
      cases hd : decodeRequest r with
      | error e =>
        have : fetch s = .refused (.illFormed e) := by simp [fetch, hp, hq, hd]
        rw [step, this] at h
        cases h
      | ok i =>
        rw [step_idle hp hq hd] at h
        cases h
        exact .inr (.inl ⟨rfl, r, rest, i, rfl, hd, rfl⟩)
  | run =>
    refine .inr (.inr ⟨rfl, ?_⟩)
    cases hi : inProgress s with
    | nothing =>
      exfalso
      unfold inProgress at hi
      split at hi
      · cases hi
      · split at hi
        · cases hi
        · split at hi
          · cases hi
          · split at hi <;> cases hi
    | fault f =>
      have : fetch s = .fault f := by simp [fetch, hp, hi]
      rw [step, this] at h
      cases h
    | refused f =>
      have : fetch s = .refused f := by simp [fetch, hp, hi]
      rw [step, this] at h
      cases h
    | instr i =>
      have hr := inProgress_isRequest hi
      cases hs : s.step with
      | none =>
        have : fetch s = .instr i := by simp [fetch, hp, hi, actionAt, hs, frameOf]
        rw [step, this] at h
        simp only at h
        rw [exec_request hr] at h
        simp [runRequest, hp, performAt, withRegister, hs] at h
      | some l =>
        cases hl : listing i l with
        | none =>
          have : fetch s = .instr i := by simp [fetch, hp, hi, actionAt, hs, hl, frameOf]
          rw [step, this] at h
          simp only at h
          rw [exec_request hr, runRequest_run ⟨hp, hs⟩, hl] at h
          cases h
        | some a =>
          rw [step_run ⟨hp, hs⟩ hi hl] at h
          exact ⟨i, l, a, rfl, rfl, hl, h⟩

end

end Sys2Proof.Machine
end

