-- ==== Sys2Proof/Laws/Decode.lean ====
section
/-! SUPPORT. The argument fields of the decoder and their encodings, and the request a decoded instruction came
from. -/

namespace Sys2Proof.Machine

@[simp] theorem decodeBit_bitByte (f : Bool → Instr) (v : Bool) : decodeBit f (bitByte v) = .ok (f v) := by
  cases v <;> rfl

@[simp] theorem decodeConfig_zext8 (c : BitVec 4) : decodeConfig (zext8 c) = .ok (.writeConfig c) := by
  revert c; decide

/-- A configuration argument with a zero high nibble is the extension of its low nibble. -/
theorem zext8_low (a : Byte) : a.extractLsb' 4 4 = 0 → zext8 (a.extractLsb' 0 4) = a := by
  revert a; decide

/-- A bit argument with its high seven bits zero is the argument of its bit 0. -/
theorem bitByte_low (a : Byte) : a.extractLsb' 1 7 = 0 → bitByte (a.getLsbD 0) = a := by
  revert a; decide

/-- The concatenation a listing spells is the extension of R7. -/
theorem zext8_eq_append (c : BitVec 4) : (0x0#4 ++ c : BitVec 8) = zext8 c := by
  revert c; decide

/-- The sixteen operation codes: what the last arm of `decodeOperation` stands for. -/
theorem operation_cases : ∀ op : BitVec 4,
    op = 0x0#4 ∨ op = 0x1#4 ∨ op = 0x2#4 ∨ op = 0x3#4 ∨ op = 0x4#4 ∨ op = 0x5#4 ∨ op = 0x6#4 ∨ op = 0x7#4 ∨
    op = 0x8#4 ∨ op = 0x9#4 ∨ op = 0xA#4 ∨ op = 0xB#4 ∨ op = 0xC#4 ∨ op = 0xD#4 ∨ op = 0xE#4 ∨ op = 0xF#4 := by
  decide

theorem decodeNoArgument_ok {i j : Instr} {arg : Byte} (h : decodeNoArgument i arg = .ok j) :
    i = j ∧ arg = 0x00 := by
  unfold decodeNoArgument at h
  split at h
  · next ha => cases h; exact ⟨rfl, ha⟩
  · cases h

theorem decodeConfig_ok {j : Instr} {arg : Byte} (h : decodeConfig arg = .ok j) :
    ∃ c, j = .writeConfig c ∧ arg = zext8 c := by
  unfold decodeConfig at h
  split at h
  · next ha => cases h; exact ⟨_, rfl, (zext8_low _ ha).symm⟩
  · cases h

theorem decodeBit_ok {f : Bool → Instr} {j : Instr} {arg : Byte} (h : decodeBit f arg = .ok j) :
    ∃ v, j = f v ∧ arg = bitByte v := by
  unfold decodeBit at h
  split at h
  · next ha => cases h; exact ⟨_, rfl, (bitByte_low _ ha).symm⟩
  · cases h

theorem decodeWriteBytes_ok {j : Instr} {arg : Byte} {w : Option (List Byte)}
    (h : decodeWriteBytes arg w = .ok j) :
    ∃ bytes, w = some bytes ∧ j = .writeBytes arg bytes ∧ arg ≠ 0x00 ∧ bytes.length = arg.toNat := by
  unfold decodeWriteBytes at h
  split at h
  · cases h
  · next hz =>
    split at h
    · cases h
    · next bytes =>
      split at h
      · next hl => cases h; exact ⟨bytes, rfl, rfl, hz, hl⟩
      · cases h

/-- What an operation other than `WRITE_BYTES` decodes to has that operation and argument (R72). -/
theorem decodeOperation_fields {op : BitVec 4} {arg : Byte} {i : Instr}
    (h : decodeOperation op arg = .ok i) : requestFields i = (op, arg, none) := by
  rcases operation_cases op with ho | ho | ho | ho | ho | ho | ho | ho | ho | ho | ho | ho | ho | ho | ho | ho <;>
    subst ho <;> simp only [decodeOperation] at h
  all_goals
    first
    | (obtain ⟨rfl, rfl⟩ := decodeNoArgument_ok h; rfl)
    | (obtain ⟨c, rfl, rfl⟩ := decodeConfig_ok h; rfl)
    | (obtain ⟨v, rfl, rfl⟩ := decodeBit_ok h; rfl)
    | (obtain ⟨b, hb, -⟩ := decodeWriteBytes_ok h; cases hb)
    | (cases h; rfl)

/-- The request a decoded instruction came from (R71, R72). -/
theorem decodeRequest_fields {r : Request} {i : Instr} (h : decodeRequest r = .ok i) :
    r = { word := requestWord (requestFields i).1 (requestFields i).2.1, wbuf := (requestFields i).2.2 } := by
  have hw := requestWord_fields r
  unfold decodeRequest at h
  split at h
  · next h6 =>
    obtain ⟨b, hb, rfl, -⟩ := decodeWriteBytes_ok h
    rw [h6] at hw
    obtain ⟨w, p⟩ := r
    cases hb
    exact congrArg (fun x => Request.mk x (some b)) hw.symm
  · split at h
    · cases h
    · next hs =>
      rw [decodeOperation_fields h]
      obtain ⟨w, p⟩ := r
      cases p with
      | none => exact congrArg (fun x => Request.mk x none) hw.symm
      | some b => simp at hs

/-- The registers of a request in progress spell it (R21, R25). -/
theorem inProgress_of_registers {s : State} {op : BitVec 4} {arg : Byte} {i : Instr} (ho : s.op = some op)
    (ha : s.arg = some arg) (h : decodeRequest { word := requestWord op arg, wbuf := s.wbuf } = .ok i) :
    inProgress s = .instr i := by
  have : ¬ (op = 0x6 ∧ s.wbuf = none) := by
    rintro ⟨rfl, hw⟩
    rw [hw] at h
    simp [decodeRequest, decodeWriteBytes] at h
    split at h <;> cases h
  simp only [inProgress, ho, ha, if_neg this, h]

/-- The request in progress depends on the request registers only. -/
theorem inProgress_congr {s t : State} {i : Instr} (h : inProgress s = .instr i) (h1 : t.op = s.op)
    (h2 : t.arg = s.arg) (h3 : t.wbuf = s.wbuf) : inProgress t = .instr i := by
  rw [← h]; simp only [inProgress, h1, h2, h3]

/-- The state an idle block is in after accepting `i`. -/
def acceptedState (i : Instr) (s : State) : State :=
  accept (requestFields i).1 (requestFields i).2.1 (requestFields i).2.2 (firstLabel i) s

/-- After the acceptance of a request, that request is in progress. -/
theorem acceptedState_inProgress {r : Request} {i : Instr} {s : State} (h : decodeRequest r = .ok i) :
    inProgress (acceptedState i s) = .instr i := by
  have h2 := decodeRequest_fields h
  rw [h2] at h
  exact inProgress_of_registers rfl rfl h

end Sys2Proof.Machine
end

