-- ==== Sys2Proof/Laws/Listings.lean ====
section
/-! SUPPORT. From the action a listing holds at a label to what the instruction does there: one lemma per shape of
Safety.lean. -/

namespace Sys2Proof.Machine

section

variable {i : Instr} {l : Label} {P : State → Prop}

theorem writesAt_of_listing {bytes : List Byte} {next : Label} (hr : isRequest i = true)
    (h : listing i l = some (.write bytes next .raise false)) : WritesAt i l bytes next := by
  intro s hs
  rw [exec_at hr hs h]
  refine ⟨fun x hc => ?_, fun e hc => ?_, fun hc => ?_⟩
  · simp only [perform, memWrite_ok hc]; simp [movedOn]
  · simp only [perform, memWrite_err hc]
  · simp only [perform, memWrite_pending hc]

theorem readsStatAt_of_listing {next : Byte → Label} (hr : isRequest i = true)
    (h : listing i l = some (.read .stat next .raise)) : ReadsStatAt i l next := by
  intro s hs
  rw [exec_at hr hs h]
  refine ⟨fun x hc => ?_, fun e hc => ?_, fun hc => ?_⟩
  · simp only [perform, memRead_ok hc, writeTarget]
  · simp only [perform, memRead_err hc]
  · simp only [perform, memRead_pending hc]

theorem readsDataAt_of_listing {next : Byte → Label} (hr : isRequest i = true)
    (h : listing i l = some (.read .data next .raise)) : ReadsDataAt i l next := by
  intro s hs
  rw [exec_at hr hs h]
  refine ⟨fun x hc => ?_, fun e hc => ?_, fun hc => ?_⟩
  · simp only [perform, memRead_ok hc, writeTarget]
  · simp only [perform, memRead_err hc]
  · simp only [perform, memRead_pending hc]

theorem returnsAt_of_done {v : Byte} (hr : isRequest i = true) (h : listing i l = some (.done v)) :
    ReturnsAt i l P v := by
  intro s hs _
  rw [exec_at hr hs h]
  simp [perform, respond_eq_endedWith, responseOk]

theorem raisesAt_of_fail {e : OpError} (hr : isRequest i = true) (h : listing i l = some (.fail e))
    (he : errorTerr e = none) : RaisesAt i l P (errorCode e) := by
  intro s hs _
  rw [exec_at hr hs h]
  simp [perform, raiseError, respond_eq_endedWith, responseErr, he]

theorem returnsAt_of_judgeStat {f : Byte → Verdict} {b v : Byte} (hr : isRequest i = true)
    (h : listing i l = some (.judgeStat f)) (hf : f b = .ret v) :
    ReturnsAt i l (fun s => s.stat = some b) v := by
  intro s hs hb
  replace hb : s.stat = some b := hb
  rw [exec_at hr hs h]
  simp [perform, withRegister, hb, hf, conclude, respond_eq_endedWith, responseOk]

theorem returnsAt_of_judgeData {f : Byte → Verdict} {b v : Byte} (hr : isRequest i = true)
    (h : listing i l = some (.judgeData f)) (hf : f b = .ret v) :
    ReturnsAt i l (fun s => s.data = some b) v := by
  intro s hs hb
  replace hb : s.data = some b := hb
  rw [exec_at hr hs h]
  simp [perform, withRegister, hb, hf, conclude, respond_eq_endedWith, responseOk]

theorem raisesAt_of_judgeStat {f : Byte → Verdict} {b : Byte} {e : OpError} (hr : isRequest i = true)
    (h : listing i l = some (.judgeStat f)) (hf : f b = .raise e) (he : errorTerr e = none) :
    RaisesAt i l (fun s => s.stat = some b) (errorCode e) := by
  intro s hs hb
  replace hb : s.stat = some b := hb
  rw [exec_at hr hs h]
  simp [perform, withRegister, hb, hf, conclude, respond_eq_endedWith, responseErr, raiseError, he]

theorem acceptedAt_of_request (hr : isRequest i = true) :
    AcceptedAt i (requestFields i).1 (requestFields i).2.1 (requestFields i).2.2 (firstLabel i) := by
  intro s hs
  rw [exec_idle hr hs]; rfl

/-- Where the listing of `i` is that of R130 at a site, `i` waits there. -/
theorem waitsAt_of_listing {site : WaitSite} {onward : Label} (hr : isRequest i = true)
    (h : ∀ w, w ≠ .ret → listing i (.wait site w) = listWait site onward w) : WaitsAt i site onward := by
  refine ⟨fun s hs => ?_, writesAt_of_listing hr (h .select (by simp)), fun s k hs hk => ?_,
    fun s k hs hk => ?_, raisesAt_of_fail hr ((h .timeout (by simp)).trans rfl) rfl⟩
  · rw [exec_at hr hs (h .l1 (by simp))]
    refine ⟨fun x hc => ?_, fun e hc => ?_, fun hc => ?_⟩
    · simp only [perform, memWrite_ok hc]; rfl
    · simp only [perform, memWrite_err hc]; rfl
    · simp only [perform, memWrite_pending hc]
  · rw [exec_at hr hs (h .read (by simp))]
    simp only [perform, withRegister, hk]
    refine ⟨fun x hc => ?_, fun e hc => ?_, fun hc => ?_⟩
    · simp only [pollRead_ok hc]; rfl
    · simp only [pollRead_err hc]
    · simp only [pollRead_pending hc]
  · rw [exec_at hr hs (h .delay (by simp))]
    simp only [perform, withRegister, hk]
    refine ⟨fun hc => ?_, fun hc => ?_⟩
    · simp only [pollDelay_done hc]
    · simp only [pollDelay_pending hc]

/-- A frame instruction is the write the listing in progress names. -/
theorem emitsFrame_of_encode {bytes : List Byte} (hr : isRequest i = false) (he : encode i = .frame bytes)
    (hd : decodeWholeFrame bytes = .ok i) : EmitsFrame i bytes := by
  refine ⟨hd, fun s j l' next h begins hi hs hl => ?_⟩
  obtain ⟨b', hb', hx⟩ := exec_frame hr
  rw [he] at hb'
  cases hb'
  rw [hx, emitFrame_named hi hs hl]
  refine ⟨fun x hc => ?_, fun e hc hh => ?_, fun e m hc hh => ?_, fun hc => ?_⟩
  · simp only [perform, memWrite_ok hc]
  · subst hh; simp only [perform, memWrite_err hc]
  · subst hh; simp only [perform, memWrite_err_discard hc]
  · simp only [perform, memWrite_pending hc]

/-- The labels of a busy-wait of `i`, but the return of the direct request. -/
theorem listing_wait {site : WaitSite} {onward : Label} (h : waitOf i site = some onward) :
    ∀ w, w ≠ .ret → listing i (.wait site w) = listWait site onward w := by
  intro w hw
  cases i <;> cases site <;> cases h <;> rfl

/-- Where a One-Wire primitive starts, waits and sends its command (R140). -/
theorem commandFrame_facts {frame : List Byte} (h : commandFrame i = some frame) :
    isRequest i = true ∧ firstLabel i = .wait .pre .l1 ∧ waitOf i .pre = some .cmd ∧
    listing i .cmd = some (.write frame (.wait .post .l1) .raise false) ∧
    ∀ w, listing i (.wait .pre w) = listWait .pre .cmd w := by
  cases i <;> cases h <;> exact ⟨rfl, rfl, rfl, rfl, fun _ => rfl⟩

end

end Sys2Proof.Machine
end

