-- ==== Sys2Proof/Laws/Runs.lean ====
section
/-! SUPPORT. Runs of several steps: how they compose, one step of each kind, and the polls of a busy-wait. -/

namespace Sys2Proof.Machine

section

variable {s t : State} {i : Instr} {l : Label} {n : Nat} {rest : List Completion}

theorem runSteps_add {m : Nat} (h : runSteps m s = .next t) : runSteps (m + n) s = runSteps n t := by
  induction m generalizing s with
  | zero => cases h; simp
  | succ m ih =>
    rw [Nat.succ_add]
    simp only [runSteps] at h ⊢
    split at h
    · exact ih h
    · cases h
    · cases h

theorem runSteps_succ (h : step s = .next t) : runSteps (n + 1) s = runSteps n t := by
  simp only [runSteps, h]

theorem completion_cons {c : Completion} (h : s.env = c :: rest) : completion s = c := by
  simp [completion, h]

theorem consume_cons {c : Completion} (h : s.env = c :: rest) : consume s = { s with env := rest } := by
  simp [consume, h]

/-- One step of a write that completes. -/
theorem step_write {bytes : List Byte} {next : Label} {h : OnErr} {x : Byte} (hs : RunsAt l s)
    (hi : inProgress s = .instr i) (hl : listing i l = some (.write bytes next h false))
    (he : s.env = .ok x :: rest) :
    step s = .next
      { s with env := rest, step := some next, trace := s.trace ++ [.memWrite s.addr bytes none] } := by
  rw [step_run hs hi hl]
  simp [perform, memWrite_ok (completion_cons he), movedOn, consume_cons he]

/-- One step of a read into `x[stat]` that completes. -/
theorem step_readStat {next : Byte → Label} {h : OnErr} {b : Byte} (hs : RunsAt l s)
    (hi : inProgress s = .instr i) (hl : listing i l = some (.read .stat next h))
    (he : s.env = .ok b :: rest) :
    step s = .next
      { s with
        env := rest, stat := some b, step := some (next b)
        trace := s.trace ++ [.memRead s.addr (.byte b)] } := by
  rw [step_run hs hi hl]
  simp [perform, memRead_ok (completion_cons he), movedOn, consume_cons he, writeTarget]

/-- One step of a read into `x[data]` that completes. -/
theorem step_readData {next : Byte → Label} {h : OnErr} {b : Byte} (hs : RunsAt l s)
    (hi : inProgress s = .instr i) (hl : listing i l = some (.read .data next h))
    (he : s.env = .ok b :: rest) :
    step s = .next
      { s with
        env := rest, data := some b, step := some (next b)
        trace := s.trace ++ [.memRead s.addr (.byte b)] } := by
  rw [step_run hs hi hl]
  simp [perform, memRead_ok (completion_cons he), movedOn, consume_cons he, writeTarget]

/-- One step of a write whose error is discarded (R102). -/
theorem step_writeDiscarded {bytes : List Byte} {next l' : Label} {e : TErr} (hs : RunsAt l s)
    (hi : inProgress s = .instr i) (hl : listing i l = some (.write bytes next (.discard l') false))
    (he : s.env = .err e :: rest) :
    step s = .next
      { s with env := rest, step := some l', trace := s.trace ++ [.memWrite s.addr bytes (some e)] } := by
  rw [step_run hs hi hl]
  simp [perform, memWrite_err_discard (completion_cons he), movedOn, consume_cons he]

/-- One step of a read whose error is discarded (R102). -/
theorem step_readDiscarded {tg : ReadTarget} {next : Byte → Label} {l' : Label} {e : TErr} (hs : RunsAt l s)
    (hi : inProgress s = .instr i) (hl : listing i l = some (.read tg next (.discard l')))
    (he : s.env = .err e :: rest) :
    step s = .next
      { s with env := rest, step := some l', trace := s.trace ++ [.memRead s.addr (.err e)] } := by
  rw [step_run hs hi hl]
  simp [perform, memRead_err_discard (completion_cons he), movedOn, consume_cons he]

theorem step_done {v : Byte} (hs : RunsAt l s) (hi : inProgress s = .instr i)
    (hl : listing i l = some (.done v)) : step s = .next (endedWith s [] (responseOk v)) := by
  rw [step_run hs hi hl]
  simp only [perform, respond_eq_endedWith]

theorem step_fail {e : OpError} (hs : RunsAt l s) (hi : inProgress s = .instr i)
    (hl : listing i l = some (.fail e)) : step s = .next (endedWith s [] (responseErr e)) := by
  rw [step_run hs hi hl]
  simp only [perform, raiseError, respond_eq_endedWith]

/-- The response of an interpretation. -/
def verdictResponse : Verdict → Response
  | .ret v => responseOk v
  | .raise e => responseErr e

theorem conclude_eq_endedWith (v : Verdict) : conclude v s = endedWith s [] (verdictResponse v) := by
  cases v <;> simp only [conclude, raiseError, respond_eq_endedWith, verdictResponse]

theorem step_judgeStat {f : Byte → Verdict} {b : Byte} (hs : RunsAt l s) (hi : inProgress s = .instr i)
    (hl : listing i l = some (.judgeStat f)) (hb : s.stat = some b) :
    step s = .next (endedWith s [] (verdictResponse (f b))) := by
  rw [step_run hs hi hl]
  simp only [perform, withRegister, hb, conclude_eq_endedWith]

theorem step_judgeData {f : Byte → Verdict} {b : Byte} (hs : RunsAt l s) (hi : inProgress s = .instr i)
    (hl : listing i l = some (.judgeData f)) (hb : s.data = some b) :
    step s = .next (endedWith s [] (verdictResponse (f b))) := by
  rw [step_run hs hi hl]
  simp only [perform, withRegister, hb, conclude_eq_endedWith]

/-- Where the first poll of a wait, or a later one, starts, `k` polls before it. -/
def pollStart (site : WaitSite) (k : Nat) (s : State) : Prop :=
  (RunsAt (.wait site .select) s ∧ s.polls = some k) ∨ (RunsAt (.wait site .l1) s ∧ k = 0)

theorem pollStart_phase {site : WaitSite} {k : Nat} (h : pollStart site k s) : s.phase = .run := by
  rcases h with ⟨hs, -⟩ | ⟨hs, -⟩ <;> exact hs.1

/-- The pointer write of a poll. -/
theorem step_pollSelect {site : WaitSite} {onward : Label} {k : Nat} {x : Byte} (hw : waitOf i site = some onward)
    (hi : inProgress s = .instr i) (h : pollStart site k s) (he : s.env = .ok x :: rest) :
    step s = .next
      { s with
        env := rest, polls := some k, step := some (.wait site .read)
        trace := s.trace ++ [.memWrite s.addr [0xE1, 0xF0] none] } := by
  rcases h with ⟨hs, hk⟩ | ⟨hs, rfl⟩
  · rw [step_run hs hi (listing_wait hw .select (by simp))]
    simp [perform, memWrite_ok (completion_cons he), movedOn, consume_cons he, bytesSrp, selectStatus, hk]
  · rw [step_run hs hi (listing_wait hw .l1 (by simp))]
    simp [perform, memWrite_ok (completion_cons he), movedOn, consume_cons he, bytesSrp, selectStatus]

/-- The status read of a poll. -/
theorem step_pollRead {site : WaitSite} {onward : Label} {k : Nat} {b : Byte} (hw : waitOf i site = some onward)
    (hi : inProgress s = .instr i) (hs : RunsAt (.wait site .read) s) (hk : s.polls = some k)
    (he : s.env = .ok b :: rest) :
    step s = .next
      { s with
        env := rest, polls := some (k + 1), stat := some b
        step := some (if b.getLsbD 0 = true then .wait site .delay else onward)
        trace := s.trace ++ [.memRead s.addr (.byte b)] } := by
  rw [step_run hs hi (listing_wait hw .read (by simp))]
  simp [perform, withRegister, hk, pollRead_ok (completion_cons he), movedOn, consume_cons he, status1wb]

/-- The delay after a busy poll. -/
theorem step_pollDelay {site : WaitSite} {onward : Label} {k : Nat} {y : Byte} (hw : waitOf i site = some onward)
    (hi : inProgress s = .instr i) (hs : RunsAt (.wait site .delay) s) (hk : s.polls = some k)
    (he : s.env = .ok y :: rest) :
    step s = .next
      { s with
        env := rest
        step := some
          (if k < s.params.pollLimit then .wait site .select
           else if s.params.busyTimeoutStrict = true then .wait site .timeout else onward)
        trace := s.trace ++ [.delay s.params.pollDelayUs] } := by
  rw [step_run hs hi (listing_wait hw .delay (by simp))]
  have hc : completion s ≠ .pending := by rw [completion_cons he]; simp
  simp [perform, withRegister, hk, pollDelay_done hc, movedOn, consume_cons he]

/-- A poll that finds the chip idle ends the wait. -/
theorem run_idlePoll {site : WaitSite} {onward : Label} {k : Nat} {x b : Byte} (hw : waitOf i site = some onward)
    (hi : inProgress s = .instr i) (h : pollStart site k s) (hb : b.getLsbD 0 = false)
    (he : s.env = .ok x :: .ok b :: rest) :
    runSteps 2 s = .next
      { s with
        env := rest, polls := some (k + 1), stat := some b, step := some onward
        trace := s.trace ++ [.memWrite s.addr [0xE1, 0xF0] none, .memRead s.addr (.byte b)] } := by
  have hp := pollStart_phase h
  refine (runSteps_succ (step_pollSelect hw hi h he)).trans ?_
  refine (runSteps_succ (step_pollRead (k := k) (b := b) (rest := rest) hw
    (by exact inProgress_congr hi rfl rfl rfl) (by exact ⟨hp, rfl⟩) (by rfl) (by rfl))).trans ?_
  simp only [runSteps, hb, Bool.false_eq_true, if_false, List.append_assoc, List.cons_append, List.nil_append]

/-- A poll that finds the chip busy delays, and goes on as L5 and L6 say (R130, R132). -/
theorem run_busyPoll {site : WaitSite} {onward : Label} {k : Nat} {p : Byte × Byte × Byte}
    (hw : waitOf i site = some onward) (hi : inProgress s = .instr i) (h : pollStart site k s)
    (hb : p.2.1.getLsbD 0 = true) (he : s.env = pollAnswers p ++ rest) :
    runSteps 3 s = .next
      { s with
        env := rest, polls := some (k + 1), stat := some p.2.1
        step := some
          (if k + 1 < s.params.pollLimit then .wait site .select
           else if s.params.busyTimeoutStrict = true then .wait site .timeout else onward)
        trace := s.trace ++ pollTrace s.addr s.params.pollDelayUs p } := by
  obtain ⟨x, b, y⟩ := p
  replace he : s.env = .ok x :: .ok b :: .ok y :: rest := he
  replace hb : b.getLsbD 0 = true := hb
  have hp := pollStart_phase h
  refine (runSteps_succ (step_pollSelect hw hi h he)).trans ?_
  refine (runSteps_succ (step_pollRead (k := k) (b := b) (rest := .ok y :: rest) hw
    (by exact inProgress_congr hi rfl rfl rfl) (by exact ⟨hp, rfl⟩) (by rfl) (by rfl))).trans ?_
  refine (runSteps_succ (step_pollDelay (k := k + 1) (y := y) (rest := rest) hw
    (by exact inProgress_congr hi rfl rfl rfl) (by exact ⟨hp, by simp [hb]⟩) (by rfl) (by rfl))).trans ?_
  simp [runSteps, pollTrace]

/-- Busy polls below the bound, from any poll of a wait on. -/
theorem run_busyPolls {site : WaitSite} {onward : Label} (hw : waitOf i site = some onward)
    (ps : List (Byte × Byte × Byte)) (hne : ps ≠ []) :
    ∀ {s : State} {k : Nat}, inProgress s = .instr i → pollStart site k s →
      (∀ p ∈ ps, p.2.1.getLsbD 0 = true) → k + ps.length < s.params.pollLimit →
      s.env = ps.flatMap pollAnswers ++ rest →
      ∃ st, runSteps (3 * ps.length) s = .next
        { s with
          env := rest, polls := some (k + ps.length), stat := st, step := some (.wait site .select)
          trace := s.trace ++ ps.flatMap (pollTrace s.addr s.params.pollDelayUs) } := by
  induction ps with
  | nil => exact absurd rfl hne
  | cons p ps ih =>
    intro s k hi h hb hlen he
    simp only [List.length_cons] at hlen
    have hp := pollStart_phase h
    have hlt : k + 1 < s.params.pollLimit := by omega
    have h3 := run_busyPoll (rest := ps.flatMap pollAnswers ++ rest) hw hi h (hb p (by simp))
      (by simpa using he)
    simp only [hlt, if_true] at h3
    rw [show 3 * (p :: ps).length = 3 + 3 * ps.length by simp only [List.length_cons]; omega,
      runSteps_add h3]
    cases ps with
    | nil => exact ⟨some p.2.1, by simp [runSteps]⟩
    | cons q qs =>
      obtain ⟨st, h4⟩ := ih (by simp) (s := { s with
          env := (q :: qs).flatMap pollAnswers ++ rest, polls := some (k + 1), stat := some p.2.1
          step := some (.wait site .select)
          trace := s.trace ++ pollTrace s.addr s.params.pollDelayUs p }) (k := k + 1)
        (inProgress_congr hi rfl rfl rfl) (.inl ⟨⟨hp, rfl⟩, rfl⟩)
        (fun r hr => hb r (by simp [hr])) (by simpa using (by omega : k + 1 + (q :: qs).length < _)) rfl
      refine ⟨st, h4.trans ?_⟩
      simp [Nat.add_assoc, Nat.add_comm 1]

end

end Sys2Proof.Machine
end

