-- ==== Sys2Proof/Laws/Flow.lean ====
section
/-! SUPPORT. How the labels of the listings follow one another: the facts that the invariant of Safety.lean and the
bound on a request's port actions rest on. -/

namespace Sys2Proof.Machine

/-- The label `l` names an action of `i` that finds its register in every state where `P` holds, and stands before no
poll: what a label reached from elsewhere than a wait needs. -/
def Enters (i : Instr) (l : Label) (P : State → Prop) : Prop :=
  ∃ a, listing i l = some a ∧ ∀ s, P s → actionReady a s = true ∧ waitReady l s = true

/-- The state has the status byte, or the data byte, a read leaves. -/
def holdsTarget (t : ReadTarget) (s : State) : Prop :=
  match t with
  | .stat => s.stat.isSome = true
  | .data => s.data.isSome = true

/-- Port actions after a wait at a site, with `n` the bound. -/
def afterWait (i : Instr) (n : Nat) : WaitSite → Nat
  | .direct => 0
  | .pre => 1 + 3 * n + fetchActions i
  | .post => fetchActions i

/-- The label is one of a busy-wait's. -/
def isWaitLabel : Label → Bool
  | .wait _ _ => true
  | _ => false

section

variable {i : Instr} {l : Label} {s t : State} {site : WaitSite} {onward : Label}

theorem actionsLeft_wait (n k : Nat) (w : WaitLabel) :
    actionsLeft i n k (.wait site w) = waitLeft n k w + afterWait i n site := by
  cases site <;> simp only [actionsLeft, afterWait, Nat.add_zero, Nat.add_assoc]

/-- Where a wait is followed by `onward`, `onward` names an action that any status byte readies. -/
theorem onward_enters (h : waitOf i site = some onward) : Enters i onward (holdsTarget .stat) := by
  cases i <;> cases site <;> cases h <;> exact ⟨_, rfl, fun _ hs => ⟨by first | rfl | exact hs, rfl⟩⟩

theorem onward_left (h : waitOf i site = some onward) (n k : Nat) :
    actionsLeft i n k onward = afterWait i n site := by
  cases i <;> cases site <;> cases h <;> rfl

/-- The labels of a wait are those of R130's listing, and the return of the direct request. -/
theorem listing_wait_some {a : Action} {w : WaitLabel} (h : listing i (.wait site w) = some a) :
    ∃ onward, waitOf i site = some onward ∧
      ((w = .ret ∧ a = .judgeStat .ret) ∨ (w ≠ .ret ∧ listWait site onward w = some a)) := by
  have key : ∀ onward, waitOf i site = some onward → w ≠ .ret → listWait site onward w = some a :=
    fun onward ho hw => (listing_wait ho w hw).symm.trans h
  cases i <;> cases site <;> first
    | (cases h; done)
    | (refine ⟨_, rfl, ?_⟩
       by_cases hw : w = .ret
       · subst hw; cases h <;> exact .inl ⟨rfl, rfl⟩
       · exact .inr ⟨hw, key _ rfl hw⟩)

/-- Writes outside the waits. -/
theorem write_flow {bytes : List Byte} {next : Label} {h : OnErr} {begins : Bool} (hw : isWaitLabel l = false)
    (hl : listing i l = some (.write bytes next h begins)) :
    begins = false ∧ Enters i next (fun _ => True) ∧
    (∀ n k, actionsLeft i n k next < actionsLeft i n k l) ∧
    (∀ l', h = .discard l' → Enters i l' (fun _ => True) ∧
      ∀ n k, actionsLeft i n k l' < actionsLeft i n k l) := by
  cases i <;> cases l <;> first
    | (cases hl; done)
    | (cases hw; done)
    | (cases hl
       refine ⟨rfl, ⟨_, rfl, fun _ _ => ⟨rfl, rfl⟩⟩, fun n k => ?_, fun l' hd => ?_⟩
       · simp only [actionsLeft, waitLeft]; try omega
       · first
         | (cases hd; done)
         | (cases hd; exact ⟨⟨_, rfl, fun _ _ => ⟨rfl, rfl⟩⟩, fun n k => by simp only [actionsLeft]; omega⟩))

/-- Reads outside the waits. -/
theorem read_flow {tg : ReadTarget} {next : Byte → Label} {h : OnErr}
    (hl : listing i l = some (.read tg next h)) :
    (∀ b, Enters i (next b) (holdsTarget tg) ∧ ∀ n k, actionsLeft i n k (next b) < actionsLeft i n k l) ∧
    (∀ l', h = .discard l' → Enters i l' (fun _ => True) ∧
      ∀ n k, actionsLeft i n k l' < actionsLeft i n k l) := by
  cases i <;> cases l <;> first
    | (cases hl; done)
    | (rename_i st w; cases st <;> first | (cases hl) | (cases w <;> cases hl))
    | (cases hl
       refine ⟨fun b => ⟨?_, fun n k => ?_⟩, fun l' hd => ?_⟩
       · first
         | exact ⟨_, rfl, fun _ hs => ⟨by first | rfl | exact hs, rfl⟩⟩
         | (dsimp only; split <;> exact ⟨_, rfl, fun _ _ => ⟨rfl, rfl⟩⟩)
       · first
         | (simp only [actionsLeft]; omega)
         | (dsimp only; split <;> simp only [actionsLeft] <;> omega)
       · first
         | (cases hd; done)
         | (cases hd; exact ⟨⟨_, rfl, fun _ _ => ⟨rfl, rfl⟩⟩, fun n k => by simp only [actionsLeft]; omega⟩))

/-- A poll stands at the read of a wait. -/
theorem poll_flow {next : Byte → Label} (hl : listing i l = some (.poll next)) :
    ∃ site onward, l = .wait site .read ∧ waitOf i site = some onward ∧
      ∀ b, next b = if b.getLsbD 0 = true then .wait site .delay else onward := by
  cases l with
  | wait site w =>
    obtain ⟨onward, ho, ⟨-, ha⟩ | ⟨-, ha⟩⟩ := listing_wait_some hl
    · cases ha
    · cases w <;> first | (cases ha; done) | skip
      · cases ha; exact ⟨site, onward, rfl, ho, fun b => rfl⟩
      · simp only [listWait] at ha; split at ha <;> cases ha
  | _ => cases i <;> cases hl

/-- A delay stands at the delay of a wait. -/
theorem delay_flow {again timeout onward' : Label} (hl : listing i l = some (.delay again timeout onward')) :
    ∃ site, l = .wait site .delay ∧ waitOf i site = some onward' ∧ again = .wait site .select ∧
      timeout = .wait site .timeout := by
  cases l with
  | wait site w =>
    obtain ⟨onward, ho, ⟨-, ha⟩ | ⟨-, ha⟩⟩ := listing_wait_some hl
    · cases ha
    · cases w <;> first | (cases ha; done) | skip
      · cases ha; exact ⟨site, rfl, ho, rfl, rfl⟩
      · simp only [listWait] at ha; split at ha <;> cases ha
  | _ => cases i <;> cases hl

/-- A write inside a wait is one of its pointer writes. -/
theorem waitWrite_flow {bytes : List Byte} {next : Label} {h : OnErr} {begins : Bool} {w : WaitLabel}
    (hl : listing i (.wait site w) = some (.write bytes next h begins)) :
    ∃ onward, waitOf i site = some onward ∧ next = .wait site .read ∧ h = .raise ∧
      ((w = .l1 ∧ begins = true) ∨ (w = .select ∧ begins = false)) := by
  obtain ⟨onward, ho, ⟨-, ha⟩ | ⟨-, ha⟩⟩ := listing_wait_some hl
  · cases ha
  · cases w <;> first | (cases ha; done) | skip
    · cases ha; exact ⟨onward, ho, rfl, rfl, .inl ⟨rfl, rfl⟩⟩
    · cases ha; exact ⟨onward, ho, rfl, rfl, .inr ⟨rfl, rfl⟩⟩
    · simp only [listWait] at ha; split at ha <;> cases ha

/-! The invariant. -/

theorem inv_run (hp : s.phase = .run) :
    inv s = true ↔ 1 ≤ s.params.pollLimit ∧ s.polls.all (· ≤ s.params.pollLimit) = true ∧
      ∃ i l a, inProgress s = .instr i ∧ s.step = some l ∧ listing i l = some a ∧
        actionReady a s = true ∧ waitReady l s = true := by
  unfold inv
  simp only [hp]
  constructor
  · intro h
    simp only [Bool.and_eq_true, decide_eq_true_eq] at h
    obtain ⟨⟨h1, h2⟩, h3⟩ := h
    refine ⟨h1, h2, ?_⟩
    split at h3
    · next i l hi hl =>
      split at h3
      · next a ha => simp only [Bool.and_eq_true] at h3; exact ⟨i, l, a, hi, hl, ha, h3⟩
      · cases h3
    · cases h3
  · rintro ⟨h1, h2, i, l, a, hi, hl, ha, h3, h4⟩
    simp [h1, h2, hi, hl, ha, h3, h4]

theorem inv_idle (hp : s.phase = .idle) :
    inv s = true ↔ 1 ≤ s.params.pollLimit ∧ s.polls.all (· ≤ s.params.pollLimit) = true ∧
      allBottom s = true := by
  unfold inv
  simp [hp, and_assoc]

theorem inv_endedWith {acts : List PortAction} {r : Response} (h : 1 ≤ s.params.pollLimit) :
    inv (endedWith s acts r) = true := by
  rw [inv_idle rfl]
  exact ⟨h, rfl, rfl⟩

theorem inv_consume (h : inv s = true) : inv (consume s) = true := by
  have key : ∀ e d, inv { s with env := e, draws := d } = inv s := by
    intro e d
    have hip : inProgress { s with env := e, draws := d } = inProgress s := rfl
    unfold inv
    simp only [hip, actionReady, waitReady, allBottom]
  unfold consume
  split
  · exact (key _ s.draws).trans h
  · exact (key s.env _).trans h

theorem inv_acceptedState {r : Request} (h : 1 ≤ s.params.pollLimit) (hd : decodeRequest r = .ok i) :
    inv (acceptedState i s) = true := by
  rw [inv_run rfl]
  refine ⟨h, rfl, i, firstLabel i, ?_⟩
  have hr := decodeRequest_isRequest hd
  have hip := acceptedState_inProgress (s := s) hd
  cases i <;> first | (cases hr; done) | exact ⟨_, hip, rfl, rfl, rfl, rfl⟩

/-- A label that names an action which finds its registers performs it. -/
theorem perform_ready {a : Action} (hl : listing i l = some a) (hr : actionReady a s = true)
    (hw : waitReady l s = true) : ∃ t, perform a s = .next t := by
  cases a with
  | write | read | done | fail => exact ⟨_, rfl⟩
  | poll next =>
    obtain ⟨site, onward, rfl, -⟩ := poll_flow hl
    cases hk : s.polls with
    | none => simp [waitReady, hk] at hw
    | some k => exact ⟨_, by simp only [perform, withRegister, hk]; rfl⟩
  | delay _ _ _ =>
    obtain ⟨site, rfl, -⟩ := delay_flow hl
    cases hk : s.polls with
    | none => simp [waitReady, hk] at hw
    | some k => exact ⟨_, by simp only [perform, withRegister, hk]; rfl⟩
  | judgeStat f =>
    obtain ⟨b, hb⟩ := Option.isSome_iff_exists.mp (show s.stat.isSome = true from hr)
    exact ⟨_, by simp only [perform, withRegister, hb]; rfl⟩
  | judgeData f =>
    obtain ⟨b, hb⟩ := Option.isSome_iff_exists.mp (show s.data.isSome = true from hr)
    exact ⟨_, by simp only [perform, withRegister, hb]; rfl⟩

/-- `t` stands at a label of the same request, ready, with fewer port actions left than `s` had at `l`. -/
def Advances (i : Instr) (l : Label) (s t : State) : Prop :=
  ∃ l' a, RunsAt l' t ∧ inProgress t = .instr i ∧ listing i l' = some a ∧ actionReady a t = true ∧
    waitReady l' t = true ∧ t.params = s.params ∧ t.polls.all (· ≤ s.params.pollLimit) = true ∧
    actionsLeft i s.params.pollLimit (t.polls.getD 0) l' <
      actionsLeft i s.params.pollLimit (s.polls.getD 0) l

/-- An action of a sound controller that completes either ends the request or advances it. -/
theorem perform_advances {a : Action} (hs : RunsAt l s) (hi : inProgress s = .instr i)
    (hl : listing i l = some a) (hw : waitReady l s = true) (hn : 1 ≤ s.params.pollLimit)
    (hk : s.polls.all (· ≤ s.params.pollLimit) = true) (hc : completion s ≠ .pending)
    (h : perform a s = .next t) : t.phase = .idle ∨ Advances i l s t := by
  obtain ⟨hp, -⟩ := hs
  have enter : ∀ {l' : Label} {P : State → Prop} {u : State}, Enters i l' P → P u → u.phase = .run →
      u.step = some l' → u.op = s.op → u.arg = s.arg → u.wbuf = s.wbuf → u.params = s.params →
      u.polls.all (· ≤ s.params.pollLimit) = true →
      actionsLeft i s.params.pollLimit (u.polls.getD 0) l' <
        actionsLeft i s.params.pollLimit (s.polls.getD 0) l → Advances i l s u := by
    rintro l' P u ⟨b, hb, hready⟩ hP h1 h2 h3 h4 h5 h6 h7 h8
    exact ⟨l', b, ⟨h1, h2⟩, inProgress_congr hi h3 h4 h5, hb, (hready u hP).1, (hready u hP).2, h6, h7, h8⟩
  cases a with
  | write bytes next he begins =>
    simp only [perform, Host.Outcome.next.injEq] at h
    subst h
    cases hwl : isWaitLabel l with
    | false =>
      obtain ⟨rfl, hent, hlt, hdis⟩ := write_flow hwl hl
      cases hx : completion s with
      | pending => exact absurd hx hc
      | ok x =>
        rw [memWrite_ok hx]
        exact .inr (enter hent trivial (by simpa [movedOn] using hp) rfl (by simp [movedOn])
          (by simp [movedOn]) (by simp [movedOn]) (by simp [movedOn]) (by simpa using hk)
          (by simpa using hlt _ _))
      | err e =>
        cases he with
        | raise => rw [memWrite_err hx]; exact .inl rfl
        | discard l' =>
          rw [memWrite_err_discard hx]
          obtain ⟨hent, hlt⟩ := hdis l' rfl
          exact .inr (enter hent trivial (by simpa [movedOn] using hp) rfl (by simp [movedOn])
            (by simp [movedOn]) (by simp [movedOn]) (by simp [movedOn]) (by simpa [movedOn] using hk)
            (by simpa [movedOn] using hlt _ _))
    | true =>
      cases l with
      | wait site w =>
        obtain ⟨onward, ho, rfl, rfl, hb⟩ := waitWrite_flow hl
        have hent : Enters i (.wait site .read) (fun u => u.polls.any (· < u.params.pollLimit) = true) :=
          ⟨_, (listing_wait ho .read (by simp)).trans rfl, fun u hu => ⟨rfl, hu⟩⟩
        cases hx : completion s with
        | pending => exact absurd hx hc
        | err e => rw [memWrite_err hx]; exact .inl rfl
        | ok x =>
          rw [memWrite_ok hx]
          refine .inr (enter hent ?_ (by simpa [movedOn] using hp) rfl (by simp [movedOn])
            (by simp [movedOn]) (by simp [movedOn]) (by simp [movedOn]) ?_ ?_)
          · rcases hb with ⟨rfl, rfl⟩ | ⟨rfl, rfl⟩
            · simpa [movedOn] using Nat.lt_of_lt_of_le Nat.zero_lt_one hn
            · simpa [movedOn, waitReady] using hw
          · rcases hb with ⟨rfl, rfl⟩ | ⟨rfl, rfl⟩
            · simp
            · simpa using hk
          · rcases hb with ⟨rfl, rfl⟩ | ⟨rfl, rfl⟩
            · simp only [actionsLeft_wait, waitLeft]; simp; omega
            · cases hk' : s.polls with
              | none => simp [waitReady, hk'] at hw
              | some k =>
                simp only [waitReady, hk', Option.any_some, decide_eq_true_eq] at hw
                simp only [actionsLeft_wait, waitLeft]; simp; omega
      | _ => cases hwl
  | read tg next he =>
    simp only [perform, Host.Outcome.next.injEq] at h
    subst h
    obtain ⟨hent, hdis⟩ := read_flow hl
    cases hx : completion s with
    | pending => exact absurd hx hc
    | ok b =>
      rw [memRead_ok hx]
      refine .inr (enter (hent b).1 ?_ ?_ ?_ ?_ ?_ ?_ ?_ ?_ ?_) <;> cases tg <;>
        first
        | simp [movedOn, writeTarget, holdsTarget]; done
        | simpa [movedOn, writeTarget] using hp
        | simpa [movedOn, writeTarget] using hk
        | simpa [movedOn, writeTarget] using (hent b).2 _ _
    | err e =>
      cases he with
      | raise => rw [memRead_err hx]; exact .inl rfl
      | discard l' =>
        rw [memRead_err_discard hx]
        obtain ⟨hent, hlt⟩ := hdis l' rfl
        exact .inr (enter hent trivial (by simpa [movedOn] using hp) rfl (by simp [movedOn])
          (by simp [movedOn]) (by simp [movedOn]) (by simp [movedOn]) (by simpa [movedOn] using hk)
          (by simpa [movedOn] using hlt _ _))
  | poll next =>
    obtain ⟨site, onward, rfl, ho, hnx⟩ := poll_flow hl
    cases hk' : s.polls with
    | none => simp [waitReady, hk'] at hw
    | some k =>
      simp only [perform, withRegister, hk', Host.Outcome.next.injEq] at h
      subst h
      simp only [waitReady, hk', Option.any_some, decide_eq_true_eq] at hw
      cases hx : completion s with
      | pending => exact absurd hx hc
      | err e => rw [pollRead_err hx]; exact .inl rfl
      | ok b =>
        rw [pollRead_ok hx, hnx b]
        cases hb : b.getLsbD 0 with
        | true =>
          have hent : Enters i (.wait site .delay) (fun u => u.polls.isSome = true ∧ u.stat.isSome = true) :=
            ⟨_, (listing_wait ho .delay (by simp)).trans rfl, fun u hu => ⟨rfl, by simp [waitReady, hu]⟩⟩
          refine .inr (enter hent ⟨rfl, rfl⟩ (by simpa [movedOn] using hp) rfl (by simp [movedOn])
            (by simp [movedOn]) (by simp [movedOn]) (by simp [movedOn]) (by simp; omega) ?_)
          simp only [actionsLeft_wait, waitLeft]; simp [hk']; omega
        | false =>
          refine .inr (enter (onward_enters ho) rfl (by simpa [movedOn] using hp) rfl (by simp [movedOn])
            (by simp [movedOn]) (by simp [movedOn]) (by simp [movedOn]) (by simp; omega) ?_)
          simp only [actionsLeft_wait, waitLeft]
          simp [hk', onward_left ho]; omega
  | delay again timeout onward =>
    obtain ⟨site, rfl, ho, rfl, rfl⟩ := delay_flow hl
    cases hk' : s.polls with
    | none => simp [waitReady, hk'] at hw
    | some k =>
      simp only [perform, withRegister, hk', Host.Outcome.next.injEq] at h
      subst h
      simp only [waitReady, hk', Option.isSome_some, Bool.true_and] at hw
      rw [hk'] at hk
      rw [pollDelay_done hc]
      have hleft : actionsLeft i s.params.pollLimit (s.polls.getD 0) (.wait site .delay) =
          3 * (s.params.pollLimit - k) + 1 + afterWait i s.params.pollLimit site := by
        rw [actionsLeft_wait, hk']; rfl
      by_cases hlt : k < s.params.pollLimit
      · have hent : Enters i (.wait site .select) (fun u => u.polls.any (· < u.params.pollLimit) = true) :=
          ⟨_, (listing_wait ho .select (by simp)).trans rfl, fun u hu => ⟨rfl, hu⟩⟩
        simp only [hlt, if_true]
        refine .inr (enter hent (by simpa [movedOn, hk'] using hlt) (by simpa [movedOn] using hp) rfl
          (by simp [movedOn]) (by simp [movedOn]) (by simp [movedOn]) (by simp [movedOn])
          (by simpa [movedOn, hk'] using hk) ?_)
        rw [hleft, actionsLeft_wait]; simp only [movedOn, consume_polls, hk', Option.getD_some, waitLeft]; omega
      · simp only [hlt, if_false]
        cases hst : s.params.busyTimeoutStrict with
        | true =>
          have hent : Enters i (.wait site .timeout) (fun u => u.params.busyTimeoutStrict = true) :=
            ⟨_, (listing_wait ho .timeout (by simp)).trans rfl, fun u hu => ⟨rfl, hu⟩⟩
          refine .inr (enter hent (by simpa [movedOn] using hst) (by simpa [movedOn] using hp) rfl
            (by simp [movedOn]) (by simp [movedOn]) (by simp [movedOn]) (by simp [movedOn])
            (by simpa [movedOn, hk'] using hk) ?_)
          rw [hleft, actionsLeft_wait]; simp only [waitLeft]; omega
        | false =>
          refine .inr (enter (onward_enters ho) (by simpa [movedOn, holdsTarget] using hw)
            (by simpa [movedOn] using hp) rfl
            (by simp [movedOn]) (by simp [movedOn]) (by simp [movedOn]) (by simp [movedOn])
            (by simpa [movedOn, hk'] using hk) ?_)
          rw [hleft]
          simp only [Bool.false_eq_true, if_false, onward_left ho]; omega
  | done v =>
    simp only [perform, Host.Outcome.next.injEq, respond_eq_endedWith] at h
    subst h; exact .inl rfl
  | fail e =>
    simp only [perform, Host.Outcome.next.injEq, raiseError, respond_eq_endedWith] at h
    subst h; exact .inl rfl
  | judgeStat f =>
    cases hb : s.stat with
    | none => simp [perform, withRegister, hb] at h
    | some b =>
      simp only [perform, withRegister, hb, Host.Outcome.next.injEq, conclude_eq_endedWith] at h
      subst h; exact .inl rfl
  | judgeData f =>
    cases hb : s.data with
    | none => simp [perform, withRegister, hb] at h
    | some b =>
      simp only [perform, withRegister, hb, Host.Outcome.next.injEq, conclude_eq_endedWith] at h
      subst h; exact .inl rfl

end

end Sys2Proof.Machine
end

