-- ==== Sys2Proof/Laws/PerInstr.lean ====
section
/-! SUPPORT. Statements for all instructions, one lemma per constructor. -/

namespace Sys2Proof.Laws.EncodesRow

/-- The row of spec/opcode_table.json a constructor stands for: its width in bits, its mask and its match. -/
def row : Instr → Nat × Nat × Nat
  | .deviceReset => (12, 0xFFF, 0x000)
  | .writeConfig _ => (12, 0xFF0, 0x100)
  | .setReadPointer _ => (12, 0xF00, 0x200)
  | .regReadByte => (12, 0xFFF, 0x300)
  | .readStatus => (12, 0xFFF, 0x400)
  | .readDataRegister => (12, 0xFFF, 0x500)
  | .writeBytes _ _ => (12, 0xF00, 0x600)
  | .busyWait => (12, 0xFFF, 0x700)
  | .owReset => (12, 0xFFF, 0x800)
  | .owReadBit => (12, 0xFFF, 0x900)
  | .owWriteBit _ => (12, 0xFFE, 0xA00)
  | .owReadByte => (12, 0xFFF, 0xB00)
  | .owWriteByte _ => (12, 0xF00, 0xC00)
  | .owTriplet _ => (12, 0xFFE, 0xD00)
  | .searchAll => (12, 0xFFF, 0xE00)
  | .searchAlarm => (12, 0xFFF, 0xF00)
  | .frameDrst => (8, 0xFF, 0xF0)
  | .frameWcfg _ => (16, 0xFF00, 0xD200)
  | .frame1wrs => (8, 0xFF, 0xB4)
  | .frame1wsb _ => (16, 0xFF00, 0x8700)
  | .frame1wrb => (8, 0xFF, 0x96)
  | .frame1wwb _ => (16, 0xFF00, 0xA500)
  | .frame1wt _ => (16, 0xFF00, 0x7800)
  | .frameSrp _ => (16, 0xFF00, 0xE100)

/-- An encoding as one number of the table: a request's 12-bit word, or a frame's bytes with byte 0 in the high
bits (R75). -/
def tableNumber : Encoding → Nat × Nat
  | .request r => (12, r.word.toNat)
  | .frame bytes => (8 * bytes.length, bytes.foldl (fun n b => 256 * n + b.toNat) 0)

/-- The instruction's encoding has its row's width and matches its row. -/
def Statement (i : Instr) : Prop :=
  (tableNumber (encode i)).1 = (row i).1 ∧ (tableNumber (encode i)).2 &&& (row i).2.1 = (row i).2.2

theorem deviceReset : Statement .deviceReset := ⟨rfl, by decide⟩
theorem writeConfig (c : BitVec 4) : Statement (.writeConfig c) := ⟨rfl, by revert c; decide⟩
theorem setReadPointer (p : Byte) : Statement (.setReadPointer p) := ⟨rfl, by revert p; decide⟩
theorem regReadByte : Statement .regReadByte := ⟨rfl, by decide⟩
theorem readStatus : Statement .readStatus := ⟨rfl, by decide⟩
theorem readDataRegister : Statement .readDataRegister := ⟨rfl, by decide⟩
theorem writeBytes (n : Byte) (bytes : List Byte) : Statement (.writeBytes n bytes) :=
  ⟨rfl, by show (requestWord 0x6 n).toNat &&& 0xF00 = 0x600; revert n; decide⟩
theorem busyWait : Statement .busyWait := ⟨rfl, by decide⟩
theorem owReset : Statement .owReset := ⟨rfl, by decide⟩
theorem owReadBit : Statement .owReadBit := ⟨rfl, by decide⟩
theorem owWriteBit (v : Bool) : Statement (.owWriteBit v) := ⟨rfl, by revert v; decide⟩
theorem owReadByte : Statement .owReadByte := ⟨rfl, by decide⟩
theorem owWriteByte (v : Byte) : Statement (.owWriteByte v) := ⟨rfl, by revert v; decide⟩
theorem owTriplet (d : Bool) : Statement (.owTriplet d) := ⟨rfl, by revert d; decide⟩
theorem searchAll : Statement .searchAll := ⟨rfl, by decide⟩
theorem searchAlarm : Statement .searchAlarm := ⟨rfl, by decide⟩
theorem frameDrst : Statement .frameDrst := ⟨rfl, by decide⟩
theorem frameWcfg (b : Byte) : Statement (.frameWcfg b) := ⟨rfl, by revert b; decide⟩
theorem frame1wrs : Statement .frame1wrs := ⟨rfl, by decide⟩
theorem frame1wsb (b : Byte) : Statement (.frame1wsb b) := ⟨rfl, by revert b; decide⟩
theorem frame1wrb : Statement .frame1wrb := ⟨rfl, by decide⟩
theorem frame1wwb (v : Byte) : Statement (.frame1wwb v) := ⟨rfl, by revert v; decide⟩
theorem frame1wt (b : Byte) : Statement (.frame1wt b) := ⟨rfl, by revert b; decide⟩
theorem frameSrp (p : Byte) : Statement (.frameSrp p) := ⟨rfl, by revert p; decide⟩

end Sys2Proof.Laws.EncodesRow
end

