-- ==== Sys2Proof/Tests/Slice0.lean ====
section
/-! SUPPORT. The model's own tests. Expected values come from the spec: the encodings of 30_encoding.md, and the
vectors V1 to V72 of 95_test_vectors.md, cited by number. -/

namespace Sys2Proof.Tests

open Sys2Proof.Machine

/-! ### WellFormed smoke test: one ill-formed term per check (R74) -/

theorem test_illFormed_writeBytes_zero : (Instr.writeBytes 0x00 []).wellFormed = false := by decide

theorem test_illFormed_writeBytes_length : (Instr.writeBytes 0x03 [0x01, 0x02]).wellFormed = false := by decide

theorem test_wellFormed_writeBytes : (Instr.writeBytes 0x03 [0x01, 0x02, 0x03]).wellFormed = true := by decide

/-! ### Decoding: every constructor from a word written out from R72's and R76's tables -/

theorem test_decode_deviceReset :
    decodeRequest { word := 0b0000_00000000#12, wbuf := none } = .ok .deviceReset := by decide

theorem test_decode_writeConfig :
    decodeRequest { word := 0b0001_0000_1001#12, wbuf := none } = .ok (.writeConfig 0x9) := by decide

theorem test_decode_setReadPointer :
    decodeRequest { word := 0b0010_11000011#12, wbuf := none } = .ok (.setReadPointer 0xC3) := by decide

theorem test_decode_regReadByte :
    decodeRequest { word := 0b0011_00000000#12, wbuf := none } = .ok .regReadByte := by decide

theorem test_decode_readStatus :
    decodeRequest { word := 0b0100_00000000#12, wbuf := none } = .ok .readStatus := by decide

theorem test_decode_readDataRegister :
    decodeRequest { word := 0b0101_00000000#12, wbuf := none } = .ok .readDataRegister := by decide

theorem test_decode_writeBytes :
    decodeRequest { word := 0b0110_00000010#12, wbuf := some [0xE1, 0xF0] } =
      .ok (.writeBytes 0x02 [0xE1, 0xF0]) := by decide

theorem test_decode_busyWait :
    decodeRequest { word := 0b0111_00000000#12, wbuf := none } = .ok .busyWait := by decide

theorem test_decode_owReset :
    decodeRequest { word := 0b1000_00000000#12, wbuf := none } = .ok .owReset := by decide

theorem test_decode_owReadBit :
    decodeRequest { word := 0b1001_00000000#12, wbuf := none } = .ok .owReadBit := by decide

theorem test_decode_owWriteBit :
    decodeRequest { word := 0b1010_00000001#12, wbuf := none } = .ok (.owWriteBit true) := by decide

theorem test_decode_owReadByte :
    decodeRequest { word := 0b1011_00000000#12, wbuf := none } = .ok .owReadByte := by decide

theorem test_decode_owWriteByte :
    decodeRequest { word := 0b1100_10100101#12, wbuf := none } = .ok (.owWriteByte 0xA5) := by decide

theorem test_decode_owTriplet :
    decodeRequest { word := 0b1101_00000000#12, wbuf := none } = .ok (.owTriplet false) := by decide

theorem test_decode_searchAll :
    decodeRequest { word := 0b1110_00000000#12, wbuf := none } = .ok .searchAll := by decide

theorem test_decode_searchAlarm :
    decodeRequest { word := 0b1111_00000000#12, wbuf := none } = .ok .searchAlarm := by decide

theorem test_decode_frameDrst : decodeTableWord 8 0b11110000 = some .frameDrst := by decide

theorem test_decode_frameWcfg : decodeTableWord 16 0b11010010_11100001 = some (.frameWcfg 0xE1) := by decide

theorem test_decode_frame1wrs : decodeTableWord 8 0b10110100 = some .frame1wrs := by decide

theorem test_decode_frame1wsb : decodeTableWord 16 0b10000111_11111111 = some (.frame1wsb 0xFF) := by decide

theorem test_decode_frame1wrb : decodeTableWord 8 0b10010110 = some .frame1wrb := by decide

theorem test_decode_frame1wwb : decodeTableWord 16 0b10100101_00111100 = some (.frame1wwb 0x3C) := by decide

theorem test_decode_frame1wt : decodeTableWord 16 0b01111000_00000000 = some (.frame1wt 0x00) := by decide

theorem test_decode_frameSrp : decodeTableWord 16 0b11100001_11110000 = some (.frameSrp 0xF0) := by decide

/-- A request in the table's numbering, 12 bits in two bytes. -/
theorem test_decode_table_request : decodeTableWord 16 0b0111_00000000 = some .busyWait := by decide

/-! ### Refused requests (R74) -/

/-- V24 -/
theorem test_refused_emptyWrite : decodeRequest { word := 0x600#12, wbuf := some [] } = .error .emptyWrite := by
  decide

/-- V25 -/
theorem test_refused_config : decodeRequest { word := 0x112#12, wbuf := none } = .error .configArgument := by
  decide

/-- V53 -/
theorem test_refused_bit : decodeRequest { word := 0xA02#12, wbuf := none } = .error .bitArgument := by decide

/-- V72 -/
theorem test_refused_argument : decodeRequest { word := 0xE01#12, wbuf := none } = .error .argumentNotZero := by
  decide

theorem test_refused_payloadGiven :
    decodeRequest { word := 0x000#12, wbuf := some [0x01] } = .error .payloadGiven := by decide

theorem test_refused_payloadLength :
    decodeRequest { word := 0x603#12, wbuf := some [0x01, 0x02] } = .error .payloadLength := by decide

/-- R80 -/
theorem test_refused_truncatedFrame : decodeWholeFrame [0xD2] = .error (.truncatedFrame 0xD2) := by decide

theorem test_refused_unknownCommand : decodeWholeFrame [0x00, 0x01] = .error (.unknownCommand 0x00) := by decide

theorem test_refused_trailingBytes : decodeWholeFrame [0xB4, 0x00] = .error .trailingBytes := by decide

/-! ### Operand forms -/

/-- R79's examples. -/
theorem test_cfgByte : cfgByte 0x0 = 0xF0 ∧ cfgByte 0x1 = 0xE1 ∧ cfgByte 0x5 = 0xA5 ∧ cfgByte 0xF = 0x0F := by
  decide

/-- V60 to V64: the values of a triplet. -/
theorem test_tripletValue :
    verdictOwTriplet 0x40 = .ret 0x02 ∧ verdictOwTriplet 0x60 = .ret 0x03 ∧ verdictOwTriplet 0xA0 = .ret 0x05 ∧
    verdictOwTriplet 0xE0 = .ret 0x07 ∧ verdictOwTriplet 0x9E = .ret 0x04 := by decide

/-- V40 to V44: SD before PPD, other bits ignored. -/
theorem test_owReset_status :
    verdictOwReset 0x02 = .ret 0x01 ∧ verdictOwReset 0x00 = .ret 0x00 ∧
    verdictOwReset 0x04 = .raise .shortDetected ∧ verdictOwReset 0xF6 = .raise .shortDetected ∧
    verdictOwReset 0x03 = .ret 0x01 := by decide

/-- V48 to V50 -/
theorem test_owReadBit_status :
    verdictOwReadBit 0x20 = .ret 0x01 ∧ verdictOwReadBit 0xDE = .ret 0x00 ∧ verdictOwReadBit 0x24 = .ret 0x01 := by
  decide

/-- V1 to V4 -/
theorem test_deviceReset_status :
    verdictDeviceReset 0x10 = .ret 0x00 ∧ verdictDeviceReset 0xFF = .ret 0x00 ∧
    verdictDeviceReset 0xEF = .raise .deviceReset ∧ verdictDeviceReset 0x00 = .raise .deviceReset := by decide

/-! ### One step each, on a small state -/

/-- A controller with a bound of two polls, no request presented and one completion to come. -/
def blank (c : Completion) : State :=
  { addr := 0x18#7, phase := .idle, step := none, op := none, arg := none, wbuf := none, polls := none
    stat := none, data := none, params := { pollLimit := 2, pollDelayUs := 20, busyTimeoutStrict := false }
    requests := [], env := [c], draws := 0, trace := [] }

/-- That controller, with the request `w` presented. -/
def presented (w : BitVec 12) : State := { blank (.ok 0x00) with requests := [{ word := w, wbuf := none }] }

/-- The request `op`, `arg` in progress at `l`, the transient registers holding `polls`, `stat` and `data`. -/
def running (op : BitVec 4) (arg : Byte) (l : Label) (polls : Option Nat) (stat data : Option Byte)
    (c : Completion) : State :=
  { blank c with
    phase := .run, step := some l, op := some op, arg := some arg, polls := polls, stat := stat, data := data }

/-- One field of the state after one step. -/
def after {α : Type} (f : State → α) (s : State) : Option α :=
  match step s with
  | .next t => some (f t)
  | .fault _ => none
  | .refused _ => none

/-- The last port action of a trace. -/
def lastAction (s : State) : Option PortAction := s.trace.getLast?

/-- The response of a step, and whether it left the block IDLE. -/
def okResponse (v : Byte) : Option (Option PortAction × Phase) :=
  some (some (.respond { kind := .ok, code := 0, value := v, terr := none }), .idle)

def errResponse (code : BitVec 3) (terr : Option TErr) : Option (Option PortAction × Phase) :=
  some (some (.respond { kind := .err, code := code, value := 0x00, terr := terr }), .idle)

/-- What the last action of a step is, and the phase after it. -/
def ends (s : State) : Option (Option PortAction × Phase) := after (fun t => (lastAction t, t.phase)) s

/-- R71 -/
theorem test_accept :
    after (fun t => (t.step, t.op, t.arg)) (presented 0x101#12) = some (some .l1, some 0x1, some 0x01) := by decide

/-- R71: a primitive starts with its pre-wait. -/
theorem test_accept_primitive :
    after (fun t => (t.step, t.trace)) (presented 0x800#12) = some (some (.wait .pre .l1), []) := by decide

/-- V24: the block refuses. -/
theorem test_refuses : step (presented 0x600#12) = .refused (.illFormed .emptyWrite) := by rfl

/-- V1: `W[F0]`. -/
theorem test_deviceReset_write :
    after (fun t => (lastAction t, t.step)) (running 0x0 0x00 .l1 none none none (.ok 0x00)) =
      some (some (.memWrite 0x18#7 [0xF0] none), some .l2) := by decide

/-- V5: a failed write ends the request with its error. -/
theorem test_deviceReset_fails :
    ends (running 0x0 0x00 .l1 none none none (.err ⟨7⟩)) = errResponse 2 (some ⟨7⟩) := by decide

/-- V7: `W[D2 F0]`. -/
theorem test_writeConfig_write :
    after lastAction (running 0x1 0x00 .l1 none none none (.ok 0x00)) =
      some (some (.memWrite 0x18#7 [0xD2, 0xF0] none)) := by decide

/-- V9: the echo of the written byte is a mismatch. -/
theorem test_writeConfig_echo :
    after State.step (running 0x1 0x01 .l2 none none none (.ok 0xE1)) = some (some .l4Write) := by decide

/-- V12: an error of the best-effort reset is discarded. -/
theorem test_writeConfig_discards :
    after (fun t => (t.step, t.phase)) (running 0x1 0x01 .l4Write none none (some 0x00) (.err ⟨7⟩)) =
      some (some .l5, .run) := by decide

/-- V17 -/
theorem test_setReadPointer_write :
    after lastAction (running 0x2 0xC3 .l1 none none none (.ok 0x00)) =
      some (some (.memWrite 0x18#7 [0xE1, 0xC3] none)) := by decide

/-- V18 -/
theorem test_regReadByte_value : ends (running 0x3 0x00 .l2 none none (some 0x5A) .pending) = okResponse 0x5A := by
  decide

/-- V19 -/
theorem test_readStatus_value : ends (running 0x4 0x00 .l3 none (some 0x81) none .pending) = okResponse 0x81 := by
  decide

/-- V21 -/
theorem test_readDataRegister_write :
    after lastAction (running 0x5 0x00 .l1 none none none (.ok 0x00)) =
      some (some (.memWrite 0x18#7 [0xE1, 0xE1] none)) := by decide

/-- V23 -/
theorem test_writeBytes_write :
    after lastAction { running 0x6 0x03 .l1 none none none (.ok 0x00) with wbuf := some [0x01, 0x02, 0x03] } =
      some (some (.memWrite 0x18#7 [0x01, 0x02, 0x03] none)) := by decide

/-- V32: a busy status is followed by a delay. -/
theorem test_busyWait_busy :
    after (fun t => (t.step, t.polls, t.stat)) (running 0x7 0x00 (.wait .direct .read) (some 0) none none (.ok 0x01)) =
      some (some (.wait .direct .delay), some 1, some 0x01) := by decide

/-- V34: the delay after the last poll ends the wait without an error. -/
theorem test_busyWait_exhausted :
    after (fun t => (lastAction t, t.step))
        (running 0x7 0x00 (.wait .direct .delay) (some 2) (some 0xFF) none (.ok 0x00)) =
      some (some (.delay 20), some (.wait .direct .ret)) := by decide

/-- V35: in the strict variant it raises `BusyTimeout`. -/
theorem test_busyWait_strict : ends (running 0x7 0x00 (.wait .direct .timeout) (some 2) (some 0x01) none .pending) =
    errResponse 5 none := by decide

/-- V42 -/
theorem test_owReset_short : ends (running 0x8 0x00 .int (some 1) (some 0x04) none .pending) = errResponse 4 none := by
  decide

/-- V48: `W[87 FF]`. -/
theorem test_owReadBit_write :
    after lastAction (running 0x9 0x00 .cmd (some 1) (some 0x00) none (.ok 0x00)) =
      some (some (.memWrite 0x18#7 [0x87, 0xFF] none)) := by decide

/-- V52: `W[87 00]`. -/
theorem test_owWriteBit_write :
    after lastAction (running 0xA 0x00 .cmd (some 1) (some 0x00) none (.ok 0x00)) =
      some (some (.memWrite 0x18#7 [0x87, 0x00] none)) := by decide

/-- V54: after the post-wait the data register is fetched. -/
theorem test_owReadByte_fetch :
    after (fun t => (lastAction t, t.step)) (running 0xB 0x00 .fetchSelect (some 1) (some 0x00) none (.ok 0x00)) =
      some (some (.memWrite 0x18#7 [0xE1, 0xE1] none), some .fetchRead) := by decide

/-- V58 -/
theorem test_owWriteByte_write :
    after lastAction (running 0xC 0xF0 .cmd (some 1) (some 0x00) none (.ok 0x00)) =
      some (some (.memWrite 0x18#7 [0xA5, 0xF0] none)) := by decide

/-- V60: direction 0 is reported though 1 was asked. -/
theorem test_owTriplet_value : ends (running 0xD 0x01 .int (some 1) (some 0x40) none .pending) = okResponse 0x02 := by
  decide

/-- V70 -/
theorem test_searchAll : ends (running 0xE 0x00 .l1 none none none .pending) = okResponse 0x00 := by decide

/-- V71 -/
theorem test_searchAlarm : ends (running 0xF 0x00 .l1 none none none .pending) = okResponse 0x01 := by decide

/-- R24: an interpretation of a register that holds `⊥` faults. -/
theorem test_bottom_faults :
    step (running 0x4 0x00 .l3 none none none .pending) = .fault (.readBottom .stat) := by rfl

/-- R23: a frame that the listing in progress does not name is not sent. -/
theorem test_frame_unlisted :
    exec .frame1wrb (running 0x8 0x00 .cmd (some 1) (some 0x00) none (.ok 0x00)) = .fault .unlistedAction := by rfl

/-- A frame that it names is. -/
theorem test_frame_listed :
    exec .frame1wrs (running 0x8 0x00 .cmd (some 1) (some 0x00) none (.ok 0x00)) =
      step (running 0x8 0x00 .cmd (some 1) (some 0x00) none (.ok 0x00)) := by rfl

/-- A table word placed with `withFetchWord` is what the next step runs. -/
theorem test_withFetchWord_request :
    step ((blank .pending).withFetchWord 16 0x700) = exec .busyWait ((blank .pending).withFetchWord 16 0x700) := by
  rfl

theorem test_withFetchWord_frame :
    step ((blank (.ok 0x00)).withFetchWord 16 0xE1F0) =
      exec (.frameSrp 0xF0) ((blank (.ok 0x00)).withFetchWord 16 0xE1F0) := by rfl

end Sys2Proof.Tests
end

