-- ==== Sys2Proof/Tests/Witnesses.lean ====
section
/-! SUPPORT. For every obligation with hypotheses, concrete states and operands that meet them, each clause of the
statement at a boundary of its range. -/

namespace Sys2Proof.Tests

open Sys2Proof.Machine

/-! ### Builders -/

/-- At `l`, the transport may answer in each of the three ways. -/
def meets (l : Label) (f : Completion → State) : Prop :=
  (RunsAt l (f (.ok 0xFF)) ∧ completion (f (.ok 0xFF)) = .ok 0xFF) ∧
  (RunsAt l (f (.err ⟨0⟩)) ∧ completion (f (.err ⟨0⟩)) = .err ⟨0⟩) ∧
  (RunsAt l (f .pending) ∧ completion (f .pending) = .pending)

theorem meets_running (op : BitVec 4) (arg : Byte) (l : Label) (polls : Option Nat) (stat data : Option Byte) :
    meets l (running op arg l polls stat data) := ⟨⟨⟨rfl, rfl⟩, rfl⟩, ⟨⟨rfl, rfl⟩, rfl⟩, ⟨rfl, rfl⟩, rfl⟩

/-- The labels of a busy-wait, the count below the bound of two polls and at it. -/
def meetsWait (op : BitVec 4) (arg : Byte) (site : WaitSite) : Prop :=
  meets (.wait site .l1) (running op arg (.wait site .l1) none none none) ∧
  meets (.wait site .select) (running op arg (.wait site .select) (some 1) (some 0x01) none) ∧
  meets (.wait site .read) (running op arg (.wait site .read) (some 1) (some 0x01) none) ∧
  (∀ k, meets (.wait site .delay) (running op arg (.wait site .delay) (some k) (some 0x01) none) ∧
    ∀ c, (running op arg (.wait site .delay) (some k) (some 0x01) none c).polls = some k) ∧
  RunsAt (.wait site .timeout) (running op arg (.wait site .timeout) (some 2) (some 0x01) none .pending)

theorem meetsWait_running (op : BitVec 4) (arg : Byte) (site : WaitSite) : meetsWait op arg site :=
  ⟨meets_running .., meets_running .., meets_running .., fun _ => ⟨meets_running .., fun _ => rfl⟩, rfl, rfl⟩

/-- An idle controller with one request and the completions `env`. -/
def asked (w : BitVec 12) (wbuf : Option (List Byte)) (env : List Completion) : State :=
  { blank .pending with requests := [{ word := w, wbuf := wbuf }], env := env }

/-- `WRITE_BYTES` about to send `bytes`. -/
def sending (bytes : List Byte) (c : Completion) : State :=
  { running 0x6 (BitVec.ofNat 8 bytes.length) .l1 none none none c with wbuf := some bytes }

/-- A busy poll and its completions. -/
def busyPoll : Byte × Byte × Byte := (0x00, 0x01, 0x00)

theorem busyPolls : ∀ p ∈ [busyPoll] ++ [busyPoll], p.2.1.getLsbD 0 = true := by
  intro p h
  simp only [List.cons_append, List.nil_append, List.mem_cons, List.not_mem_nil, or_false, or_self] at h
  subst h
  rfl

/-- The request in progress in a `running` state, whatever its completions. -/
theorem inProgress_running {op : BitVec 4} {arg : Byte} {i : Instr} (l : Label) (polls : Option Nat)
    (stat data : Option Byte) (c : Completion)
    (h : decodeRequest { word := requestWord op arg, wbuf := none } = .ok i) :
    inProgress (running op arg l polls stat data c) = .instr i := inProgress_of_registers rfl rfl h

/-! ### Encoding -/

theorem witness_DecodeEncodeAgree :
    (Instr.writeBytes 0x01 [0xB4]).wellFormed = true ∧
    (Instr.writeBytes 0xFF (List.replicate 255 0x00)).wellFormed = true := by
  simp only [Instr.wellFormed, List.length_replicate]
  decide

theorem witness_DecodedIsItsEncoding :
    decode (.request { word := 0xD01#12, wbuf := none }) = .ok (.owTriplet true) ∧
    decode (.frame [0xE1, 0xF0]) = .ok (.frameSrp 0xF0) := by decide

theorem witness_IllFormedRequestsRefused :
    (presented 0x001#12).phase = .idle ∧
    (presented 0x001#12).requests = { word := 0x0#4 ++ 0x01#8, wbuf := none } :: [] ∧
    illFormedRequest 0x0 0x01 none ∧ illFormedRequest 0x1 0x10 none ∧ illFormedRequest 0xA 0x02 none ∧
    illFormedRequest 0x6 0x00 (some []) ∧ illFormedRequest 0x6 0x01 none ∧
    illFormedRequest 0x2 0x00 (some [0x00]) ∧
    ¬ illFormedRequest 0x1 0x0F none ∧ ¬ illFormedRequest 0x6 0x01 (some [0x00]) := by
  refine ⟨rfl, rfl, .inl (by decide), .inr (.inl (by decide)), .inr (.inr (.inl (by decide))),
    .inr (.inr (.inr (.inl (by decide)))), .inr (.inr (.inr (.inl ⟨rfl, .inr (by simp)⟩))),
    .inr (.inr (.inr (.inr (by decide)))), ?_, ?_⟩
  · unfold illFormedRequest; simp
  · unfold illFormedRequest; simp

theorem witness_FrameLengthFromFirstByte :
    0x96#8 ∈ [0xF0#8, 0xB4#8, 0x96#8] ∧ 0xE1#8 ∈ [0xD2#8, 0x87#8, 0xA5#8, 0x78#8, 0xE1#8] ∧
    0x00#8 ∉ [0xF0#8, 0xB4#8, 0x96#8, 0xD2#8, 0x87#8, 0xA5#8, 0x78#8, 0xE1#8] ∧
    meets .l1 (sending [0x01, 0x02, 0x03]) :=
  ⟨by decide, by decide, by decide, ⟨⟨rfl, rfl⟩, rfl⟩, ⟨⟨rfl, rfl⟩, rfl⟩, ⟨rfl, rfl⟩, rfl⟩

theorem witness_ConfigurationByte : meets .l1 (running 0x1 0x0F .l1 none none none) := meets_running ..

theorem witness_BitPayload :
    meets .cmd (running 0xA 0x00 .cmd (some 1) (some 0x00) none) ∧
    meets .cmd (running 0x9 0x00 .cmd (some 1) (some 0x00) none) ∧
    meets .cmd (running 0xD 0x01 .cmd (some 1) (some 0x00) none) :=
  ⟨meets_running .., meets_running .., meets_running ..⟩

/-! ### Reset, fetch and the request port -/

theorem witness_ConstructionState : decodeRequest { word := 0x700#12, wbuf := none } = .ok .busyWait := by decide

theorem witness_StepRunsFetchedInstruction :
    ((blank .pending).phase = .idle ∧ (blank .pending).requests = []) ∧
    ((presented 0x700#12).phase = .idle ∧ (presented 0x700#12).requests = { word := 0x700#12, wbuf := none } :: [] ∧
      decodeRequest { word := 0x700#12, wbuf := none } = .ok .busyWait) ∧
    (∀ c, RunsAt .cmd (running 0x8 0x00 .cmd (some 1) (some 0x00) none c) ∧
      (running 0x8 0x00 .cmd (some 1) (some 0x00) none c).op = some 0x8 ∧
      (running 0x8 0x00 .cmd (some 1) (some 0x00) none c).arg = some 0x00) ∧
    decodeRequest { word := 0x8#4 ++ 0x00#8, wbuf := none } = .ok .owReset ∧
    (∃ next h b, listing .owReset .cmd = some (.write [0xB4] next h b)) ∧
    decodeWholeFrame [0xB4] = .ok .frame1wrs ∧
    ∀ bytes next h b f, listing .owReset .int = some (.write bytes next h b) → decodeWholeFrame bytes ≠ .ok f :=
  ⟨⟨rfl, rfl⟩, ⟨rfl, rfl, by decide⟩, fun _ => ⟨⟨rfl, rfl⟩, rfl, rfl⟩, by decide, ⟨_, _, _, rfl⟩, by decide,
    fun _ _ _ _ _ h => by cases h⟩

theorem witness_RunningStepIsRequestStep :
    ∀ c, RunsAt .cmd (running 0x8 0x00 .cmd none none none c) ∧
      inProgress (running 0x8 0x00 .cmd none none none c) = .instr .owReset ∧
      RunsAt .l5 (running 0x8 0x00 .l5 none none none c) ∧
      inProgress (running 0x8 0x00 .l5 none none none c) = .instr .owReset ∧ listing .owReset .l5 = none :=
  fun _ => ⟨⟨rfl, rfl⟩, inProgress_running _ _ _ _ _ rfl, ⟨rfl, rfl⟩, inProgress_running _ _ _ _ _ rfl, rfl⟩

theorem witness_RequestAccepted : (blank .pending).phase = .idle := rfl

theorem witness_RequestTakenOnlyWhenIdle :
    (∃ t, step (running 0x3 0x00 .l1 none none none (.ok 0x00)) = .next t) ∧
    (running 0x3 0x00 .l1 none none none (.ok 0x00)).phase = .run ∧
    (∃ t, step (presented 0x300#12) = .next t) ∧ (presented 0x300#12).phase = .idle ∧
    (presented 0x300#12).requests = { word := 0x300#12, wbuf := none } :: [] :=
  ⟨⟨_, rfl⟩, rfl, ⟨_, rfl⟩, rfl, rfl⟩

theorem witness_EachStepIsOnePortAction :
    (∃ t, step (blank .pending) = .next t) ∧ (∃ t, step (presented 0x300#12) = .next t) ∧
    (∃ t, step (running 0x3 0x00 .l1 none none none (.ok 0x5A)) = .next t) ∧
    (∃ t, step (running 0x3 0x00 .l1 none none none (.err ⟨7⟩)) = .next t) ∧
    (∃ t, step (running 0x3 0x00 .l1 none none none .pending) = .next t) ∧
    ∃ t, step (running 0x3 0x00 .l2 none none (some 0x5A) .pending) = .next t :=
  ⟨⟨_, rfl⟩, ⟨_, rfl⟩, ⟨_, rfl⟩, ⟨_, rfl⟩, ⟨_, rfl⟩, _, rfl⟩

/-! ### Register I/O -/

theorem witness_DeviceResetListing :
    (blank .pending).phase = .idle ∧ meets .l1 (running 0x0 0x00 .l1 none none none) ∧
    meets .l2 (running 0x0 0x00 .l2 none none none) ∧
    (∀ b, RunsAt .l3 (running 0x0 0x00 .l3 none (some b) none .pending) ∧
      (running 0x0 0x00 .l3 none (some b) none .pending).stat = some b) ∧
    (0x10#8).getLsbD 4 = true ∧ (0xEF#8).getLsbD 4 = false :=
  ⟨rfl, meets_running .., meets_running .., fun _ => ⟨⟨rfl, rfl⟩, rfl⟩, rfl, rfl⟩

theorem witness_WriteConfigListing :
    (blank .pending).phase = .idle ∧
    (∀ c : BitVec 4, meets .l1 (running 0x1 (0x0#4 ++ c) .l1 none none none) ∧
      meets .l2 (running 0x1 (0x0#4 ++ c) .l2 none none none) ∧
      RunsAt .l3 (running 0x1 (0x0#4 ++ c) .l3 none none (some (0x0#4 ++ c)) .pending) ∧
      meets .l4Write (running 0x1 (0x0#4 ++ c) .l4Write none none (some 0xFF)) ∧
      meets .l4Read (running 0x1 (0x0#4 ++ c) .l4Read none none (some 0xFF)) ∧
      RunsAt .l5 (running 0x1 (0x0#4 ++ c) .l5 none none (some 0xFF) .pending)) :=
  ⟨rfl, fun _ => ⟨meets_running .., meets_running .., ⟨rfl, rfl⟩, meets_running .., meets_running .., rfl, rfl⟩⟩

theorem witness_SetReadPointerListing :
    (blank .pending).phase = .idle ∧ ∀ p : Byte, meets .l1 (running 0x2 p .l1 none none none) ∧
      RunsAt .l2 (running 0x2 p .l2 none none none .pending) :=
  ⟨rfl, fun _ => ⟨meets_running .., rfl, rfl⟩⟩

theorem witness_RegReadByteListing :
    (blank .pending).phase = .idle ∧ meets .l1 (running 0x3 0x00 .l1 none none none) ∧
    ∀ b, RunsAt .l2 (running 0x3 0x00 .l2 none none (some b) .pending) ∧
      (running 0x3 0x00 .l2 none none (some b) .pending).data = some b :=
  ⟨rfl, meets_running .., fun _ => ⟨⟨rfl, rfl⟩, rfl⟩⟩

theorem witness_ReadStatusListing :
    (blank .pending).phase = .idle ∧ meets .l1 (running 0x4 0x00 .l1 none none none) ∧
    meets .l2 (running 0x4 0x00 .l2 none none none) ∧
    ∀ b, RunsAt .l3 (running 0x4 0x00 .l3 none (some b) none .pending) ∧
      (running 0x4 0x00 .l3 none (some b) none .pending).stat = some b :=
  ⟨rfl, meets_running .., meets_running .., fun _ => ⟨⟨rfl, rfl⟩, rfl⟩⟩

theorem witness_ReadDataRegisterListing :
    (blank .pending).phase = .idle ∧ meets .l1 (running 0x5 0x00 .l1 none none none) ∧
    meets .l2 (running 0x5 0x00 .l2 none none none) ∧
    ∀ b, RunsAt .l3 (running 0x5 0x00 .l3 none none (some b) .pending) ∧
      (running 0x5 0x00 .l3 none none (some b) .pending).data = some b :=
  ⟨rfl, meets_running .., meets_running .., fun _ => ⟨⟨rfl, rfl⟩, rfl⟩⟩

theorem witness_WriteBytesListing :
    ((0x01#8) ≠ 0x00 ∧ [0xB4#8].length = (0x01#8).toNat) ∧
    ((0xFF#8) ≠ 0x00 ∧ (List.replicate 255 0x00#8).length = (0xFF#8).toNat) ∧
    (blank .pending).phase = .idle ∧ meets .l1 (sending [0xB4]) ∧
    RunsAt .l2 { sending [0xB4] .pending with step := some .l2 } :=
  ⟨by decide, ⟨by decide, by rw [List.length_replicate]; rfl⟩, rfl, ⟨⟨⟨rfl, rfl⟩, rfl⟩, ⟨⟨rfl, rfl⟩, rfl⟩, ⟨rfl, rfl⟩, rfl⟩, rfl, rfl⟩

theorem witness_RegisterLayerNeverWaits :
    registerLayer (.writeConfig 0x5) = true ∧ (blank .pending).phase = .idle ∧
    RunsAt (.wait .pre .delay) (running 0x1 0x05 (.wait .pre .delay) (some 1) none none .pending) ∧
    (running 0x1 0x05 .l1 none none none (.ok 0x00)).phase = .run ∧
    ∃ t, exec (.writeConfig 0x5) (running 0x1 0x05 .l1 none none none (.ok 0x00)) = .next t :=
  ⟨rfl, rfl, ⟨rfl, rfl⟩, rfl, _, rfl⟩

/-! ### Busy-wait -/

theorem witness_BusyWaitListing :
    (blank .pending).phase = .idle ∧ meetsWait 0x7 0x00 .direct ∧
    ∀ b, RunsAt (.wait .direct .ret) (running 0x7 0x00 (.wait .direct .ret) (some 1) (some b) none .pending) ∧
      (running 0x7 0x00 (.wait .direct .ret) (some 1) (some b) none .pending).stat = some b :=
  ⟨rfl, meetsWait_running .., fun _ => ⟨⟨rfl, rfl⟩, rfl⟩⟩

/-- No busy poll, and one below the bound of two. -/
theorem witness_WaitEndsAtFirstIdlePoll :
    waitOf .busyWait .direct = some (.wait .direct .ret) ∧
    ∀ ps ∈ [[], [busyPoll]], ∃ s : State,
      inProgress s = .instr .busyWait ∧ RunsAt (.wait .direct .l1) s ∧
      (∀ p ∈ ps, p.2.1.getLsbD 0 = true) ∧ (0xFE#8).getLsbD 0 = false ∧ ps.length < s.params.pollLimit ∧
      s.env = ps.flatMap pollAnswers ++ .ok 0x00 :: .ok 0xFE :: [] := by
  refine ⟨rfl, fun ps h => ⟨{ running 0x7 0x00 (.wait .direct .l1) none none none .pending with
    env := ps.flatMap pollAnswers ++ .ok 0x00 :: .ok 0xFE :: [] }, inProgress_congr
      (inProgress_running (op := 0x7) (arg := 0x00) (.wait .direct .l1) none none none .pending rfl) rfl rfl rfl, ⟨rfl, rfl⟩, ?_, rfl, ?_, rfl⟩⟩ <;>
  · simp only [List.mem_cons, List.not_mem_nil, or_false] at h
    rcases h with rfl | rfl <;> simp [busyPoll, running, blank]

theorem witness_WaitExhaustsItsBound :
    waitOf .owReset .pre = some .cmd ∧
    ∃ s : State, inProgress s = .instr .owReset ∧ RunsAt (.wait .pre .l1) s ∧
      (∀ p ∈ [busyPoll] ++ [busyPoll], p.2.1.getLsbD 0 = true) ∧
      ([busyPoll] ++ [busyPoll]).length = s.params.pollLimit ∧
      s.env = ([busyPoll] ++ [busyPoll]).flatMap pollAnswers ++ [] :=
  ⟨rfl, { running 0x8 0x00 (.wait .pre .l1) none none none .pending with
    env := ([busyPoll] ++ [busyPoll]).flatMap pollAnswers ++ [] }, rfl, ⟨rfl, rfl⟩, busyPolls, rfl, rfl⟩

theorem witness_BusyWaitOnBusyChip :
    (asked 0x700#12 none (([busyPoll] ++ [busyPoll]).flatMap pollAnswers ++ [])).phase = .idle ∧
    (asked 0x700#12 none (([busyPoll] ++ [busyPoll]).flatMap pollAnswers ++ [])).requests =
      { word := 0x700#12, wbuf := none } :: [] ∧
    (∀ p ∈ [busyPoll] ++ [busyPoll], p.2.1.getLsbD 0 = true) ∧
    ([busyPoll] ++ [busyPoll]).length =
      (asked 0x700#12 none (([busyPoll] ++ [busyPoll]).flatMap pollAnswers ++ [])).params.pollLimit :=
  ⟨rfl, rfl, busyPolls, rfl⟩

/-! ### One-Wire primitives -/

theorem witness_PrimitiveCommonSequence :
    commandFrame .owReset = some [0xB4] ∧ commandFrame .owReadByte = some [0x96] ∧
    Instr.owReset ≠ .owReadByte ∧ (blank .pending).phase = .idle ∧
    meetsWait 0x8 0x00 .pre ∧ meets .cmd (running 0x8 0x00 .cmd (some 1) (some 0x00) none) ∧
    meetsWait 0x8 0x00 .post ∧ meetsWait 0xB 0x00 .post ∧
    meets .fetchSelect (running 0xB 0x00 .fetchSelect (some 1) (some 0x00) none) ∧
    meets .fetchRead (running 0xB 0x00 .fetchRead (some 1) (some 0x00) none) :=
  ⟨rfl, rfl, by decide, rfl, meetsWait_running .., meets_running .., meetsWait_running .., meetsWait_running ..,
    meets_running .., meets_running ..⟩

/-- What the six listings of the primitives ask for: IDLE, the two waits, the command, and the interpretation with any
status or data byte. -/
def meetsPrimitive (op : BitVec 4) (arg : Byte) : Prop :=
  (blank .pending).phase = .idle ∧ meetsWait op arg .pre ∧
  meets .cmd (running op arg .cmd (some 1) (some 0x00) none) ∧ meetsWait op arg .post ∧
  ∀ b, RunsAt .int (running op arg .int (some 1) (some b) (some b) .pending) ∧
    (running op arg .int (some 1) (some b) (some b) .pending).stat = some b ∧
    (running op arg .int (some 1) (some b) (some b) .pending).data = some b

theorem meetsPrimitive_running (op : BitVec 4) (arg : Byte) : meetsPrimitive op arg :=
  ⟨rfl, meetsWait_running .., meets_running .., meetsWait_running .., fun _ => ⟨⟨rfl, rfl⟩, rfl, rfl⟩⟩

theorem witness_OwResetListing :
    meetsPrimitive 0x8 0x00 ∧ (0xF6#8).getLsbD 2 = true ∧
    ((0x02#8).getLsbD 2 = false ∧ (0x02#8).getLsbD 1 = true) ∧
    (0x00#8).getLsbD 2 = false ∧ (0x00#8).getLsbD 1 = false :=
  ⟨meetsPrimitive_running .., rfl, ⟨rfl, rfl⟩, rfl, rfl⟩

theorem witness_OwReadBitListing : meetsPrimitive 0x9 0x00 := meetsPrimitive_running ..

theorem witness_OwWriteBitListing : meetsPrimitive 0xA 0x01 ∧ meetsPrimitive 0xA 0x00 :=
  ⟨meetsPrimitive_running .., meetsPrimitive_running ..⟩

theorem witness_OwReadByteListing :
    meetsPrimitive 0xB 0x00 ∧ meets .fetchSelect (running 0xB 0x00 .fetchSelect (some 1) (some 0x00) none) ∧
    meets .fetchRead (running 0xB 0x00 .fetchRead (some 1) (some 0x00) none) :=
  ⟨meetsPrimitive_running .., meets_running .., meets_running ..⟩

theorem witness_OwWriteByteListing : meetsPrimitive 0xC 0xF0 := meetsPrimitive_running ..

theorem witness_OwTripletListing : meetsPrimitive 0xD 0x01 ∧ meetsPrimitive 0xD 0x00 :=
  ⟨meetsPrimitive_running .., meetsPrimitive_running ..⟩

/-- Bytes that differ in every bit not examined, for each kind of primitive. -/
theorem witness_UnexaminedBitsDoNotMatter :
    commandFrame .owReset = some [0xB4] ∧ RunsAt .int (running 0x8 0x00 .int (some 1) none none .pending) ∧
    (0x02#8) &&& examinedBits .owReset = (0xFB#8) &&& examinedBits .owReset ∧
    (0x20#8) &&& examinedBits .owReadBit = (0xFF#8) &&& examinedBits .owReadBit ∧
    (0xA0#8) &&& examinedBits (.owTriplet true) = (0xBF#8) &&& examinedBits (.owTriplet true) ∧
    (0x00#8) &&& examinedBits (.owWriteBit true) = (0xFF#8) &&& examinedBits (.owWriteBit true) :=
  ⟨rfl, ⟨rfl, rfl⟩, by decide, by decide, by decide, by decide⟩

theorem witness_CommandAfterExhaustedPreWait :
    ∀ strict, ∃ s : State,
      commandFrame .owReset = some [0xB4] ∧ s.phase = .idle ∧
      s.requests = { word := 0x800#12, wbuf := none } :: [] ∧
      decodeRequest { word := 0x800#12, wbuf := none } = .ok .owReset ∧
      (∀ p ∈ [busyPoll] ++ [busyPoll], p.2.1.getLsbD 0 = true) ∧
      ([busyPoll] ++ [busyPoll]).length = s.params.pollLimit ∧
      s.env = ([busyPoll] ++ [busyPoll]).flatMap pollAnswers ++ .ok 0x00 :: [] ∧
      s.params.busyTimeoutStrict = strict :=
  fun strict => ⟨{ asked 0x800#12 none (([busyPoll] ++ [busyPoll]).flatMap pollAnswers ++ .ok 0x00 :: []) with
    params := { pollLimit := 2, pollDelayUs := 20, busyTimeoutStrict := strict } },
    rfl, rfl, rfl, by decide, busyPolls, rfl, rfl, rfl⟩

/-! ### Enumeration and frames -/

theorem witness_SearchEntryPoints :
    (blank .pending).phase = .idle ∧ RunsAt .l1 (running 0xE 0x00 .l1 none none none .pending) ∧
    RunsAt .l1 (running 0xF 0x00 .l1 none none none .pending) := ⟨rfl, ⟨rfl, rfl⟩, rfl, rfl⟩

/-- A frame is named by `WRITE_BYTES` with any payload byte, and the best-effort reset names the one whose error is
discarded. -/
theorem witness_FramesAreOneWrite :
    (∀ c b cmd, inProgress (sending [cmd, b] c) = .instr (.writeBytes 0x02 [cmd, b]) ∧
      (sending [cmd, b] c).step = some .l1 ∧ completion (sending [cmd, b] c) = c ∧
      listing (.writeBytes 0x02 [cmd, b]) .l1 = some (.write [cmd, b] .l2 .raise false)) ∧
    (∀ c cmd, inProgress (sending [cmd] c) = .instr (.writeBytes 0x01 [cmd]) ∧
      (sending [cmd] c).step = some .l1 ∧ completion (sending [cmd] c) = c ∧
      listing (.writeBytes 0x01 [cmd]) .l1 = some (.write [cmd] .l2 .raise false)) ∧
    (∀ c, inProgress (running 0x1 0x05 .l4Write none none (some 0xFF) c) = .instr (.writeConfig 0x5) ∧
      (running 0x1 0x05 .l4Write none none (some 0xFF) c).step = some .l4Write ∧
      completion (running 0x1 0x05 .l4Write none none (some 0xFF) c) = c) ∧
    listing (.writeConfig 0x5) .l4Write = some (.write [0xF0] .l4Read (.discard .l5) false) :=
  ⟨fun _ _ _ => ⟨inProgress_of_registers (op := 0x6) (arg := 0x02) rfl rfl
      (by simp [decodeRequest, decodeWriteBytes, sending]), rfl, rfl, rfl⟩,
    fun _ _ => ⟨inProgress_of_registers (op := 0x6) (arg := 0x01) rfl rfl
      (by simp [decodeRequest, decodeWriteBytes, sending]), rfl, rfl, rfl⟩, fun _ => ⟨inProgress_running _ _ _ _ _ rfl, rfl, rfl⟩, rfl⟩

/-! ### Whole requests -/

theorem witness_RegisterRequestsRun :
    (asked 0x000#12 none [.ok 0x00, .ok 0xFF]).phase = .idle ∧
    (asked 0x000#12 none [.ok 0x00, .ok 0xFF]).requests = { word := 0x000#12, wbuf := none } :: [] ∧
    (asked 0x000#12 none [.ok 0x00, .ok 0xFF]).env = .ok 0x00 :: .ok 0xFF :: [] ∧
    (asked 0x2FF#12 none [.ok 0x00]).requests = { word := 0x2#4 ++ 0xFF#8, wbuf := none } :: [] ∧
    (asked 0x2FF#12 none [.ok 0x00]).env = .ok 0x00 :: [] ∧
    (asked 0x300#12 none [.ok 0x5A]).requests = { word := 0x300#12, wbuf := none } :: [] ∧
    (asked 0x400#12 none [.ok 0x00, .ok 0x81]).requests = { word := 0x400#12, wbuf := none } :: [] ∧
    (asked 0x500#12 none [.ok 0x00, .ok 0x3C]).requests = { word := 0x500#12, wbuf := none } :: [] ∧
    (0x01#8) ≠ 0x00 ∧ [0xB4#8].length = (0x01#8).toNat ∧
    (asked 0x601#12 (some [0xB4]) [.ok 0x00]).requests = { word := 0x6#4 ++ 0x01#8, wbuf := some [0xB4] } :: [] :=
  ⟨rfl, rfl, rfl, rfl, rfl, rfl, rfl, rfl, by decide, rfl, rfl⟩

/-- V8 and V9 to V12. -/
theorem witness_WriteConfigRuns :
    (∀ env, (asked 0x101#12 none env).phase = .idle ∧
      (asked 0x101#12 none env).requests = { word := 0x1#4 ++ (0x0#4 ++ 0x1#4), wbuf := none } :: [] ∧
      (asked 0x101#12 none env).env = env) ∧
    (0x01#8) = 0x0#4 ++ 0x1#4 ∧ (0xE1#8) ≠ 0x0#4 ++ 0x1#4 ∧ (0x11#8) ≠ 0x0#4 ++ 0x1#4 :=
  ⟨fun _ => ⟨rfl, rfl, rfl⟩, by decide, by decide, by decide⟩

theorem witness_PrimitivesRunOnIdleChip :
    commandFrame .owReset = some [0xB4] ∧ commandFrame .owReadByte = some [0x96] ∧ Instr.owReset ≠ .owReadByte ∧
    decodeRequest { word := 0x800#12, wbuf := none } = .ok .owReset ∧
    decodeRequest { word := 0xB00#12, wbuf := none } = .ok .owReadByte ∧
    (0xFE#8).getLsbD 0 = false ∧ (0x00#8).getLsbD 0 = false ∧
    ∀ w env, (asked w none env).phase = .idle ∧ (asked w none env).requests = { word := w, wbuf := none } :: [] ∧
      (asked w none env).env = env ∧ 1 ≤ (asked w none env).params.pollLimit :=
  ⟨rfl, rfl, by decide, by decide, by decide, rfl, rfl, fun _ _ => ⟨rfl, rfl, rfl, Nat.le_succ 1⟩⟩

theorem witness_EveryRequestEnds :
    inv (asked 0x700#12 none (List.replicate 6 (.ok 0x01))) = true ∧
    (asked 0x700#12 none (List.replicate 6 (.ok 0x01))).phase = .idle ∧
    (asked 0x700#12 none (List.replicate 6 (.ok 0x01))).requests = { word := 0x700#12, wbuf := none } :: [] ∧
    decodeRequest { word := 0x700#12, wbuf := none } = .ok .busyWait ∧
    requestBound .busyWait 2 ≤ (asked 0x700#12 none (List.replicate 6 (.ok 0x01))).env.length ∧
    ∀ c ∈ (asked 0x700#12 none (List.replicate 6 (.ok 0x01))).env, c ≠ .pending := by decide

theorem witness_EachCompletionMakesProgress :
    inv (running 0x7 0x00 (.wait .direct .read) (some 1) (some 0x01) none (.ok 0x01)) = true ∧
    inv (running 0x7 0x00 (.wait .direct .delay) (some 2) (some 0x01) none (.ok 0x01)) = true ∧
    RunsAt (.wait .direct .read) (running 0x7 0x00 (.wait .direct .read) (some 1) (some 0x01) none (.ok 0x01)) ∧
    inProgress (running 0x7 0x00 (.wait .direct .read) (some 1) (some 0x01) none (.ok 0x01)) = .instr .busyWait ∧
    completion (running 0x7 0x00 (.wait .direct .read) (some 1) (some 0x01) none (.ok 0x01)) ≠ .pending :=
  ⟨by decide, by decide, ⟨rfl, rfl⟩, rfl, by decide⟩

theorem witness_PseudoInstructionsAgree :
    ∀ rs, ∃ s : State, s.phase = .idle ∧ s.env = .ok 0x00 :: .ok 0x81 :: [] ∧ s.requests = rs :=
  fun rs => ⟨{ asked 0x400#12 none [.ok 0x00, .ok 0x81] with requests := rs }, rfl, rfl, rfl⟩

/-! ### Errors and responses -/

theorem witness_TransportErrorEndsRequest :
    (∀ l, RunsAt l (running 0x1 0x05 l (some 0) none none (.err ⟨7⟩)) ∧
      completion (running 0x1 0x05 l (some 0) none none (.err ⟨7⟩)) = .err ⟨7⟩ ∧
      (running 0x1 0x05 l (some 0) none none (.err ⟨7⟩)).polls = some 0) ∧
    Label.l1 ≠ .l4Write ∧ Label.l2 ≠ .l4Read ∧
    (∃ b n h g, listing (.writeConfig 0x5) .l1 = some (.write b n h g)) ∧
    (∃ t n h, listing (.writeConfig 0x5) .l2 = some (.read t n h)) ∧
    (∃ n, listing .busyWait (.wait .direct .read) = some (.poll n)) ∧
    (∃ b n h g, listing (.writeConfig 0x5) .l4Write = some (.write b n h g)) ∧
    ∃ t n h, listing (.writeConfig 0x5) .l4Read = some (.read t n h) :=
  ⟨fun _ => ⟨⟨rfl, rfl⟩, rfl, rfl⟩, by decide, by decide, ⟨_, _, _, _, rfl⟩, ⟨_, _, _, rfl⟩, ⟨_, rfl⟩,
    ⟨_, _, _, _, rfl⟩, _, _, _, rfl⟩

theorem witness_ErrorsPerOperation :
    ∃ t acts r, inv (running 0x8 0x00 .int (some 1) (some 0x04) none .pending) = true ∧
      (running 0x8 0x00 .int (some 1) (some 0x04) none .pending).phase = .run ∧
      inProgress (running 0x8 0x00 .int (some 1) (some 0x04) none .pending) = .instr .owReset ∧
      step (running 0x8 0x00 .int (some 1) (some 0x04) none .pending) = .next t ∧
      t.trace = (running 0x8 0x00 .int (some 1) (some 0x04) none .pending).trace ++ acts ∧
      r ∈ responses acts ∧ r.kind = .err :=
  ⟨_, [.respond (responseErr .shortDetected)], responseErr .shortDetected, by decide, rfl, rfl, rfl, rfl,
    by decide, rfl⟩

theorem witness_ResponseFormat :
    (∃ t, step (running 0x8 0x00 .int (some 1) (some 0x04) none .pending) = .next t ∧
      t.trace = [] ++ [.respond (responseErr .shortDetected)]) ∧
    (responseErr .shortDetected).kind = .err ∧
    (∃ t, step (running 0x8 0x00 .int (some 1) (some 0x02) none .pending) = .next t ∧
      t.trace = [] ++ [.respond (responseOk 0x01)]) ∧ (responseOk 0x01).kind = .ok :=
  ⟨⟨_, rfl, rfl⟩, rfl, ⟨_, rfl, rfl⟩, rfl⟩

theorem witness_OneResponsePerRequest :
    ∃ t, step (running 0xE 0x00 .l1 none none none .pending) = .next t ∧ t.phase = .idle := ⟨_, rfl, rfl⟩

/-! ### State over all steps -/

theorem witness_StepsKeepSoundness :
    inv (running 0xB 0x00 .fetchRead (some 2) (some 0x01) none (.ok 0xA5)) = true ∧
    ∃ t, step (running 0xB 0x00 .fetchRead (some 2) (some 0x01) none (.ok 0xA5)) = .next t :=
  ⟨by decide, _, rfl⟩

theorem witness_TransientRegisters :
    ((∃ t, step (presented 0x300#12) = .next t) ∧ (presented 0x300#12).phase = .idle ∧
      (presented 0x300#12).requests ≠ []) ∧
    (∃ t, step (running 0xE 0x00 .l1 none none none .pending) = .next t ∧ t.phase = .idle) ∧
    (∀ op l, RunsAt l (running op 0x00 l none none none .pending) ∧
      (running op 0x00 l none none none .pending).stat = none ∧
      (running op 0x00 l none none none .pending).data = none ∧
      (running op 0x00 l none none none .pending).polls = none) ∧
    (∃ f, listing .readStatus .l3 = some (.judgeStat f)) ∧ (∃ f, listing .regReadByte .l2 = some (.judgeData f)) ∧
    (∃ n, listing .busyWait (.wait .direct .read) = some (.poll n)) ∧
    (∃ x y z, listing .busyWait (.wait .direct .delay) = some (.delay x y z)) ∧
    inv (running 0x4 0x00 .l3 none (some 0x81) none .pending) = true :=
  ⟨⟨⟨_, rfl⟩, rfl, by decide⟩, ⟨_, rfl, rfl⟩, fun _ _ => ⟨⟨rfl, rfl⟩, rfl, rfl, rfl⟩, ⟨_, rfl⟩, ⟨_, rfl⟩, ⟨_, rfl⟩,
    ⟨_, _, _, rfl⟩, by decide⟩

theorem witness_OnlyIllFormedRequestsStop :
    inv (presented 0x600#12) = true ∧ inv (running 0x4 0x00 .l3 none (some 0x81) none .pending) = true := by decide

theorem witness_AddressIsConstant :
    ∃ t, step (running 0x3 0x00 .l1 none none none (.ok 0x5A)) = .next t ∧
      t.trace = [.memRead 0x18#7 (.byte 0x5A)] := ⟨_, rfl, rfl⟩

theorem witness_InstructionFrame :
    (∃ t, exec .regReadByte (running 0x3 0x00 .l1 none none none (.ok 0x5A)) = .next t ∧ t.phase = .run) ∧
    (running 0x3 0x00 .l1 none none none (.ok 0x5A)).phase = .run ∧
    ∃ t, exec (.frameSrp 0xF0) (running 0x4 0x00 .l1 none none none (.err ⟨7⟩)) = .next t :=
  ⟨⟨_, rfl, rfl⟩, rfl, _, rfl⟩

theorem witness_TransientWriters :
    ∃ t, RunsAt (.wait .direct .read) (running 0x7 0x00 (.wait .direct .read) (some 0) none none (.ok 0x01)) ∧
      inProgress (running 0x7 0x00 (.wait .direct .read) (some 0) none none (.ok 0x01)) = .instr .busyWait ∧
      step (running 0x7 0x00 (.wait .direct .read) (some 0) none none (.ok 0x01)) = .next t ∧ t.phase = .run ∧
      t.stat ≠ none ∧ t.polls ≠ some 0 :=
  ⟨_, ⟨rfl, rfl⟩, rfl, rfl, rfl, by decide, by decide⟩

/-- The data register, in the read of `REG_READ_BYTE`. -/
theorem witness_TransientWriters_data :
    ∃ t, RunsAt .l1 (running 0x3 0x00 .l1 none none none (.ok 0x5A)) ∧
      inProgress (running 0x3 0x00 .l1 none none none (.ok 0x5A)) = .instr .regReadByte ∧
      step (running 0x3 0x00 .l1 none none none (.ok 0x5A)) = .next t ∧ t.phase = .run ∧ t.data ≠ none :=
  ⟨_, ⟨rfl, rfl⟩, rfl, rfl, rfl, by decide⟩

/-! ### The environment -/

theorem witness_CompletionSource :
    (blank .pending).env = .pending :: [] ∧ { blank .pending with env := [] }.env = [] := ⟨rfl, rfl⟩

theorem witness_BlockedUntilCompletion :
    (∀ l, RunsAt l (running 0x5 0x00 l none none none .pending) ∧
      inProgress (running 0x5 0x00 l none none none .pending) = .instr .readDataRegister ∧
      completion (running 0x5 0x00 l none none none .pending) = .pending) ∧
    (∃ b n h g, listing .readDataRegister .l1 = some (.write b n h g)) ∧
    (∃ t n h, listing .readDataRegister .l2 = some (.read t n h)) ∧
    (∀ l, RunsAt l (running 0x7 0x00 l (some 1) (some 0x01) none .pending) ∧
      inProgress (running 0x7 0x00 l (some 1) (some 0x01) none .pending) = .instr .busyWait ∧
      completion (running 0x7 0x00 l (some 1) (some 0x01) none .pending) = .pending ∧
      (running 0x7 0x00 l (some 1) (some 0x01) none .pending).polls = some 1) ∧
    (∃ n, listing .busyWait (.wait .direct .read) = some (.poll n)) ∧
    ∃ x y z, listing .busyWait (.wait .direct .delay) = some (.delay x y z) :=
  ⟨fun _ => ⟨⟨rfl, rfl⟩, inProgress_running _ _ _ _ _ rfl, rfl⟩, ⟨_, _, _, _, rfl⟩, ⟨_, _, _, rfl⟩,
    fun _ => ⟨⟨rfl, rfl⟩, inProgress_running _ _ _ _ _ rfl, rfl, rfl⟩,
    ⟨_, rfl⟩, _, _, _, rfl⟩

/-- An idle chip, then the chip with its pointer at the status register, or at the data register. -/
theorem witness_ChipRegistersReported :
    let c0 : Chip := { status := 0x00, data := 0x5A, config := 0x00, pointer := 0x00 }
    let c1 : Chip := { status := 0x10, data := 0x5A, config := 0x00, pointer := 0xF0 }
    let d1 : Chip := { status := 0x10, data := 0x5A, config := 0x00, pointer := 0xE1 }
    (asked 0x400#12 none [.ok 0x00, .ok 0x10]).phase = .idle ∧
    (asked 0x400#12 none [.ok 0x00, .ok 0x10]).env = .ok 0x00 :: .ok 0x10 :: [] ∧ chipBusy c0 = false ∧
    (asked 0x400#12 none [.ok 0x00, .ok 0x10]).requests = { word := 0x400#12, wbuf := none } :: [] ∧
    chipContract c0 (.memWrite 0x18#7 [0xE1, 0xF0] none) c1 ∧ chipContract c1 (.memRead 0x18#7 (.byte 0x10)) c1 ∧
    (asked 0x500#12 none [.ok 0x00, .ok 0x5A]).requests = { word := 0x500#12, wbuf := none } :: [] ∧
    chipContract c0 (.memWrite 0x18#7 [0xE1, 0xE1] none) d1 ∧ chipContract d1 (.memRead 0x18#7 (.byte 0x5A)) d1 := by
  refine ⟨rfl, rfl, rfl, rfl, fun _ _ => ⟨rfl, rfl, rfl, rfl⟩, fun _ => ⟨fun v h => ?_, rfl, rfl, rfl, rfl⟩, rfl,
    fun _ _ => ⟨rfl, rfl, rfl, rfl⟩, fun _ => ⟨fun v h => ?_, rfl, rfl, rfl, rfl⟩⟩ <;>
  · simp [chipSelected, selectStatus, selectData] at h
    exact h

/-- A chip whose status reports presence and a triplet of bit 1, complement 0, direction 1. -/
theorem witness_ChipResultsReported :
    let a : BusAnswer :=
      { presence := true, shorted := false, bit := true, complement := false, direction := true, byte := 0x5A }
    let c : Chip := { status := 0xA2, data := 0x5A, config := 0x00, pointer := 0xF0 }
    RunsAt .int (running 0x8 0x00 .int (some 1) (some 0xA2) (some 0x5A) .pending) ∧
    (running 0x8 0x00 .int (some 1) (some 0xA2) (some 0x5A) .pending).stat = some c.status ∧
    (running 0x8 0x00 .int (some 1) (some 0xA2) (some 0x5A) .pending).data = some c.data ∧
    chipCompleted [0xB4] a c ∧ chipCompleted [0x87, 0xFF] a c ∧ chipCompleted [0x78, 0x00] a c ∧
    chipCompleted [0x96] a c :=
  ⟨⟨rfl, rfl⟩, rfl, rfl, ⟨rfl, rfl, rfl⟩, ⟨rfl, fun _ => rfl⟩, ⟨rfl, fun _ => ⟨rfl, rfl, rfl⟩⟩, rfl, rfl⟩

/-- An idle chip with the received byte, through the last poll, the pointer frame and the fetch. -/
theorem witness_ReceivedByteFetched :
    let a : BusAnswer :=
      { presence := false, shorted := false, bit := false, complement := false, direction := false, byte := 0x5A }
    let c : Chip := { status := 0x00, data := 0x5A, config := 0x00, pointer := 0xF0 }
    let d : Chip := { c with pointer := 0xE1 }
    let s : State := { running 0xB 0x00 (.wait .post .read) (some 0) none none .pending with
      env := .ok 0x00 :: .ok 0x00 :: .ok 0x5A :: [] }
    RunsAt (.wait .post .read) s ∧ inProgress s = .instr .owReadByte ∧ s.polls = some 0 ∧
    s.env = .ok 0x00 :: .ok 0x00 :: .ok 0x5A :: [] ∧ chipCompleted [0x96] a c ∧ c.pointer = 0xF0 ∧
    chipContract c (.memRead s.addr (.byte 0x00)) c ∧ chipContract c (.memWrite s.addr [0xE1, 0xE1] none) d ∧
    chipContract d (.memRead s.addr (.byte 0x5A)) d := by
  refine ⟨⟨rfl, rfl⟩, inProgress_congr
    (inProgress_running (op := 0xB) (arg := 0x00) (.wait .post .read) (some 0) none none .pending rfl) rfl rfl rfl,
    rfl, rfl, ⟨rfl, rfl⟩, rfl, fun _ => ⟨fun v h => ?_, rfl, rfl, rfl, rfl⟩, fun _ _ => ⟨rfl, rfl, rfl, rfl⟩,
    fun _ => ⟨fun v h => ?_, rfl, rfl, rfl, rfl⟩⟩ <;>
  · simp [chipSelected, selectStatus, selectData] at h
    exact h

/-- A busy chip is left free by the contract (U1): any byte read, any chip after a read, a delay or a response. -/
theorem test_chip_busy_free :
    let c : Chip := { status := 0x01, data := 0x5A, config := 0x00, pointer := 0xF0 }
    let c' : Chip := { status := 0x00, data := 0xFF, config := 0x0F, pointer := 0xE1 }
    chipContract c (.memRead 0x18#7 (.byte 0x77)) c' ∧ chipContract c (.delay 20) c' ∧
    chipContract c (.respond (responseOk 0x00)) c' := by
  refine ⟨?_, ?_, ?_⟩ <;> intro h <;> exact absurd h (by decide)

/-- An idle chip is left free by an unlisted select code (U2), by an unlisted payload and by a configuration with its
reserved bit set (N11); the listed ones bind it. -/
theorem test_chip_unlisted_free :
    let c : Chip := { status := 0x00, data := 0x5A, config := 0x00, pointer := 0xF0 }
    let c' : Chip := { status := 0x01, data := 0xFF, config := 0x0F, pointer := 0xE1 }
    chipTakes c c' [0xE1, 0xC3] ∧ chipTakes c c' [0x87, 0x80] ∧ chipTakes c c' [0xD2, 0xD2] ∧
    ¬ chipTakes c c' [0xE1, 0xE1] ∧ ¬ chipTakes c c' [0x87, 0x00] ∧ ¬ chipTakes c c' [0xD2, 0xF0] := by
  refine ⟨fun h => absurd h (by decide), fun h => absurd h (by decide), fun h => absurd h (by decide), fun h => ?_,
    fun h => ?_, fun h => ?_⟩
  · exact absurd (h rfl).1 (by decide)
  · exact absurd (h rfl) (by decide)
  · exact absurd (h rfl) (by decide)

end Sys2Proof.Tests
end

section
/-! PROOFS. The scope statements O13, O51 and O8: what one step can be (R5, R182), that `addr` is set once (R22), and
the state at construction (R42, R210). -/

namespace Sys2Proof.Machine

/-- A transaction to `x[addr]` or the delay of R130, whatever it ended with. -/
def ownPortAction (s : State) (p : PortAction) : Prop :=
  (∃ bytes r, p = .memWrite s.addr bytes r) ∨ (∃ r, p = .memRead s.addr r) ∨ p = .delay s.params.pollDelayUs

/-- A transaction to `x[addr]` that ended in `Err(e)`. -/
def failedTransaction (s : State) (p : PortAction) (e : TErr) : Prop :=
  (∃ bytes, p = .memWrite s.addr bytes (some e)) ∨ p = .memRead s.addr (.err e)

/-- What an attempted transaction or delay leaves: a blocked controller, the next label after one port action, or the
request ended by the failed transaction (R51 to R53, R181). -/
inductive BusStep (s t : State) : Prop
  | waits (hc : completion s = .pending) (ht : t = consume s)
  | movesOn (p : PortAction) (l : Label) (hp : ownPortAction s p)
      (ht : t = { movedOn s p l with polls := t.polls, stat := t.stat, data := t.data })
  | fails (p : PortAction) (e : TErr) (hc : completion s = .err e) (hp : failedTransaction s p e)
      (ht : t = endedByTransport s p e)

section

variable {s t : State}

theorem memWrite_busStep (bytes : List Byte) (next : Label) (h : OnErr) (begins : Bool) :
    BusStep s (memWrite bytes next h begins s) := by
  have own (r : Option TErr) : ownPortAction s (.memWrite s.addr bytes r) := .inl ⟨bytes, r, rfl⟩
  cases hc : completion s with
  | ok x => exact .movesOn _ next (own none) (by rw [memWrite_ok hc])
  | pending => exact .waits hc (memWrite_pending hc ..)
  | err e =>
    cases h with
    | raise => exact .fails _ e hc (.inl ⟨bytes, rfl⟩) (memWrite_err hc ..)
    | discard l => exact .movesOn _ l (own (some e)) (by rw [memWrite_err_discard hc])

theorem memRead_busStep (tg : ReadTarget) (next : Byte → Label) (h : OnErr) :
    BusStep s (memRead tg next h s) := by
  have own (r : ReadResult) : ownPortAction s (.memRead s.addr r) := .inr (.inl ⟨r, rfl⟩)
  cases hc : completion s with
  | ok b => exact .movesOn _ (next b) (own (.byte b)) (by rw [memRead_ok hc]; cases tg <;> rfl)
  | pending => exact .waits hc (memRead_pending hc ..)
  | err e =>
    cases h with
    | raise => exact .fails _ e hc (.inr rfl) (memRead_err hc ..)
    | discard l => exact .movesOn _ l (own (.err e)) (by rw [memRead_err_discard hc])

theorem pollRead_busStep (k : Nat) (next : Byte → Label) : BusStep s (pollRead k next s) := by
  cases hc : completion s with
  | ok b => exact .movesOn _ (next b) (.inr (.inl ⟨.byte b, rfl⟩)) (by rw [pollRead_ok hc])
  | pending => exact .waits hc (pollRead_pending hc ..)
  | err e => exact .fails _ e hc (.inr rfl) (pollRead_err hc ..)

theorem pollDelay_busStep (k : Nat) (again timeout onward : Label) :
    BusStep s (pollDelay k again timeout onward s) := by
  by_cases hc : completion s = .pending
  · exact .waits hc (pollDelay_pending hc ..)
  · exact .movesOn _ _ (.inr (.inr rfl)) (by rw [pollDelay_done hc])

/-- A register an action needs held a value, where the action answers a next state (R24). -/
theorem withRegister_next {α : Type} {r : Register} {v : Option α} {f : α → Host.Outcome State Fault Refusal}
    (h : withRegister r v f = .next t) : ∃ a, v = some a ∧ f a = .next t := by
  cases v with
  | none => cases h
  | some a => exact ⟨a, rfl, h⟩

/-- One performed action is one attempt at a transaction or a delay, or one response (R5, R9). -/
theorem perform_busStep_or_ends {a : Action} (h : perform a s = .next t) :
    BusStep s t ∨ ∃ r, t = endedWith s [] r := by
  cases a with
  | write bytes next h' begins => cases h; exact .inl (memWrite_busStep ..)
  | read tg next h' => cases h; exact .inl (memRead_busStep ..)
  | poll next =>
    obtain ⟨k, -, ht⟩ := withRegister_next h
    cases ht
    exact .inl (pollRead_busStep k next)
  | delay again timeout onward =>
    obtain ⟨k, -, ht⟩ := withRegister_next h
    cases ht
    exact .inl (pollDelay_busStep k ..)
  | done v => cases h; exact .inr ⟨_, respond_eq_endedWith ..⟩
  | fail e => cases h; exact .inr ⟨_, respond_eq_endedWith ..⟩
  | judgeStat f | judgeData f =>
    obtain ⟨b, -, ht⟩ := withRegister_next h
    cases ht
    exact .inr ⟨_, conclude_eq_endedWith (f b)⟩

/-- What a performed action leaves of `addr`, the parameters and the trace (R22, R61). -/
theorem perform_addressed {a : Action} (h : perform a s = .next t) :
    t.addr = s.addr ∧ t.params = s.params ∧
    ∃ acts, t.trace = s.trace ++ acts ∧ addressedTo s.addr acts = true := by
  obtain ⟨-, -, rfl⟩ | ⟨-, -, p, l, -, hp, ht⟩ | ⟨-, v, rfl⟩ | ⟨-, e, -, rfl⟩ | ⟨-, p, e, -, -, hp, rfl⟩ :=
    perform_next h
  · exact ⟨consume_addr s, consume_params s, [], by simp, rfl⟩
  · rw [ht]
    exact ⟨consume_addr s, consume_params s, [p], rfl, hp⟩
  · exact ⟨rfl, rfl, [.respond (responseOk v)], by simp [endedWith], rfl⟩
  · exact ⟨rfl, rfl, [.respond (responseErr e)], by simp [endedWith], rfl⟩
  · refine ⟨consume_addr s, consume_params s, [p, .respond (responseErr (.i2cCommunication e))], ?_, ?_⟩
    · simp [endedByTransport, endedWith, responseErr, errorCode, errorTerr]
    · simpa [addressedTo] using hp

/-- With no request presented the idle block stays as it is (R196). -/
theorem step_noRequest (h : s.phase = .idle) (hq : s.requests = []) : step s = .next s := by
  simp [step, fetch, h, hq]

end

/-- Settles O13: `step_next` gives the idle block, the acceptance and the performed action; what that action can be is
`perform_busStep_or_ends`. -/
theorem eachStepIsOnePortAction : Obligations.EachStepIsOnePortAction := by
  intro s t h
  obtain hn | ⟨hp, r, rest, i, hq, -, rfl⟩ | ⟨hp, i, l, a, -, -, -, ha⟩ := step_next h
  · exact .inl hn
  · exact .inr (.inl ⟨hp, by simp [hq], rfl, rfl⟩)
  · obtain (⟨hc, ht⟩ | ⟨p, l', hown, ht⟩ | ⟨p, e, hc, hf, ht⟩) | hr := perform_busStep_or_ends ha
    · exact .inr (.inr (.inl ⟨hp, hc, ht⟩))
    · exact .inr (.inr (.inr (.inl ⟨hp, p, l', hown, ht⟩)))
    · exact .inr (.inr (.inr (.inr (.inr ⟨hp, p, e, hc, hf, ht⟩))))
    · exact .inr (.inr (.inr (.inr (.inl ⟨hp, hr⟩))))

/-- Settles O51: the idle block and the acceptance add no port action, and `perform_addressed` covers the rest. -/
theorem addressIsConstant : Obligations.AddressIsConstant := by
  refine ⟨rfl, fun s t h => ?_⟩
  obtain ⟨-, -, rfl⟩ | ⟨-, r, rest, i, -, -, rfl⟩ | ⟨-, i, l, a, -, -, -, ha⟩ := step_next h
  · exact ⟨rfl, rfl, [], by simp, rfl⟩
  · exact ⟨rfl, rfl, [], by simp, rfl⟩
  · exact perform_addressed ha

/-- Settles O8: the registers are read off `State.reset`; the two steps from it are `step_noRequest` and `step_idle`. -/
theorem constructionState : Obligations.ConstructionState := by
  refine ⟨rfl, rfl, rfl, rfl, rfl, rfl, rfl, rfl, rfl, rfl, rfl, rfl, rfl, step_noRequest rfl rfl, fun r i hd => ?_⟩
  exact ⟨_, step_idle (rest := []) rfl rfl hd, rfl⟩

end Sys2Proof.Machine
end

section
/-! PROOFS. The state family of spec/10_state.md: O48 and O47 (the invariant), O9 and O10 (the instruction a step runs),
O49, O52 and O53 (what a step writes, R21, R24, R25), and O56 to O58 (what the chip's contract gives, log 15). -/

namespace Sys2Proof.Machine

section

variable {s t : State} {i : Instr} {l : Label} {a : Action}

/-! ### The instruction a step runs (R23, R70) -/

/-- Only a request has a listing: a frame has none (R23). -/
theorem isRequest_of_listing (hl : listing i l = some a) : isRequest i = true := by
  cases i with
  | frameDrst | frameWcfg | frame1wrs | frame1wsb | frame1wrb | frame1wwb | frame1wt | frameSrp => cases hl
  | _ => rfl

/-- Where the listing of `i` names an action, `exec i` performs it. -/
theorem exec_listed (hs : RunsAt l s) (hl : listing i l = some a) : exec i s = perform a s :=
  exec_at (isRequest_of_listing hl) hs hl

/-- In RUN a request faults at a label its listing does not hold (R23; log 13). -/
theorem exec_unlisted (hr : isRequest i = true) (hs : RunsAt l s) (hl : listing i l = none) :
    exec i s = .fault .unlistedAction := by
  rw [exec_request hr, runRequest_run hs, hl]

/-- In RUN the step runs the frame the listing's action sends, and the request in progress where it sends none
(log 10). -/
theorem step_run_fetched (hs : RunsAt l s) (hi : inProgress s = .instr i) :
    step s = exec ((frameOf (listing i l)).getD i) s := by
  obtain ⟨hp, hl⟩ := hs
  have ha : actionAt i s = listing i l := by simp [actionAt, hl]
  cases hf : frameOf (listing i l) <;> simp [step, fetch, hp, hi, ha, hf]

/-- In RUN the step is the step of the request in progress, whichever of the two layers runs it. -/
theorem step_eq_exec_inProgress (hs : RunsAt l s) (hi : inProgress s = .instr i) : step s = exec i s := by
  cases hl : listing i l with
  | none => simp [step_run_fetched hs hi, hl, frameOf]
  | some a => rw [step_run hs hi hl, exec_listed hs hl]

/-- Where the listing's write carries a frame of R76, the step runs that frame. -/
theorem step_eq_exec_frame {bytes : List Byte} {next : Label} {h : OnErr} {begins : Bool} {f : Instr}
    (hs : RunsAt l s) (hi : inProgress s = .instr i) (hl : listing i l = some (.write bytes next h begins))
    (hf : decodeWholeFrame bytes = .ok f) : step s = exec f s := by
  simp [step_run_fetched hs hi, hl, frameOf, hf]

/-- An idle block refuses a request that spells no operation (R74). -/
theorem step_illFormed {r : Request} {rest : List Request} {why : DecodeError} (hp : s.phase = .idle)
    (hq : s.requests = r :: rest) (hd : decodeRequest r = .error why) :
    step s = .refused (.illFormed why) := by
  simp [step, fetch, hp, hq, hd]

/-- An idle block never faults: it waits, accepts or refuses (R71, R74, R196). -/
theorem step_idle_ne_fault (hp : s.phase = .idle) (f : Fault) : step s ≠ .fault f := by
  cases hq : s.requests with
  | nil => simp [step_noRequest hp hq]
  | cons r rest =>
    cases hd : decodeRequest r with
    | ok i => simp [step_idle hp hq hd]
    | error why => simp [step_illFormed hp hq hd]

/-! ### The invariant (R21, R23, R24) -/

/-- The invariant at a label whose action is known. -/
theorem inv_runsAt (hs : RunsAt l s) (hi : inProgress s = .instr i) (hl : listing i l = some a) :
    inv s = true ↔ 1 ≤ s.params.pollLimit ∧ s.polls.all (· ≤ s.params.pollLimit) = true ∧
      actionReady a s = true ∧ waitReady l s = true := by
  obtain ⟨hp, hstep⟩ := hs
  simp [inv_run hp, hi, hstep, hl]

/-- A state that has advanced to a ready label of the same request is sound. -/
theorem inv_of_advances (hn : 1 ≤ s.params.pollLimit) (h : Advances i l s t) : inv t = true := by
  obtain ⟨l', a, hs, hi, hl, hr, hw, hpar, hk, -⟩ := h
  rw [inv_runsAt hs hi hl, hpar]
  exact ⟨hn, hk, hr, hw⟩

/-- A performed action keeps the invariant: the block stays blocked, it advances, or the request has ended. -/
theorem perform_keeps_inv (hs : RunsAt l s) (hi : inProgress s = .instr i) (hl : listing i l = some a)
    (h : inv s = true) (ha : perform a s = .next t) : inv t = true := by
  obtain ⟨hn, hk, -, hw⟩ := (inv_runsAt hs hi hl).mp h
  obtain ⟨-, -, rfl⟩ | ⟨-, hc, p, l', -, -, ht⟩ | ⟨-, v, rfl⟩ | ⟨-, e, -, rfl⟩ | ⟨-, p, e, -, -, -, rfl⟩ :=
    perform_next ha
  · exact inv_consume h
  · obtain hidle | hadv := perform_advances hs hi hl hw hn hk hc ha
    · rw [ht] at hidle
      simp [movedOn, hs.1] at hidle
    · exact inv_of_advances hn hadv
  · exact inv_endedWith hn
  · exact inv_endedWith hn
  · exact inv_endedWith (s := consume s) (by simpa using hn)

/-- A sound controller in RUN makes a step: its action finds every register it reads. -/
theorem step_run_progress (hp : s.phase = .run) (h : inv s = true) : ∃ t, step s = .next t := by
  obtain ⟨-, -, i, l, a, hi, hs, hl, hr, hw⟩ := (inv_run hp).mp h
  rw [step_run ⟨hp, hs⟩ hi hl]
  exact perform_ready hl hr hw

/-! ### What a performed action leaves (R21, R24, R25) -/

/-- Where a performed action takes the block to IDLE, the request has ended (R24). -/
theorem perform_to_idle (hp : s.phase = .run) (h : perform a s = .next t) (ht : t.phase = .idle) :
    ∃ u acts r, t = endedWith u acts r := by
  obtain (⟨-, rfl⟩ | ⟨p, l', -, he⟩ | ⟨p, e, -, -, rfl⟩) | ⟨r, rfl⟩ := perform_busStep_or_ends h
  · simp [hp] at ht
  · rw [he] at ht
    simp [movedOn, hp] at ht
  · exact ⟨_, _, _, rfl⟩
  · exact ⟨_, _, _, rfl⟩

/-- The frame of a performed action: the port of requests always, the request registers until the response, and the
trace, which grows by the port action and the response at most (R61; log 2). -/
theorem perform_frame (h : perform a s = .next t) :
    t.requests = s.requests ∧ (t.phase = .run → t.op = s.op ∧ t.arg = s.arg ∧ t.wbuf = s.wbuf) ∧
    ∃ acts, t.trace = s.trace ++ acts ∧ acts.length ≤ 2 := by
  obtain (⟨-, rfl⟩ | ⟨p, l', -, he⟩ | ⟨p, e, -, -, rfl⟩) | ⟨r, rfl⟩ := perform_busStep_or_ends h
  · exact ⟨consume_requests s, fun _ => by simp, [], by simp⟩
  · rw [he]
    exact ⟨consume_requests s, fun _ => by simp [movedOn], [p], by simp [movedOn]⟩
  · exact ⟨consume_requests s, nofun, [p, .respond (responseErr (.i2cCommunication e))],
      by simp [endedByTransport, endedWith, responseErr, errorCode, errorTerr]⟩
  · exact ⟨rfl, nofun, [.respond r], by simp [endedWith]⟩

/-! ### The writers of `stat`, `data` and `polls` (R21, R130) -/

section

variable {next : Label} {sel : Byte → Label} {h : OnErr} {begins : Bool} {bytes : List Byte} {tg : ReadTarget}

/-- A write leaves the transient registers, but for L1's write of `polls` (R130; log 3). -/
theorem memWrite_transients (ht : (memWrite bytes next h begins s).phase = .run) :
    (memWrite bytes next h begins s).stat = s.stat ∧ (memWrite bytes next h begins s).data = s.data ∧
    (begins = false → (memWrite bytes next h begins s).polls = s.polls) := by
  cases hc : completion s with
  | ok x => rw [memWrite_ok hc]; simp +contextual [movedOn]
  | pending => simp [memWrite_pending hc]
  | err e =>
    cases h with
    | raise => rw [memWrite_err hc] at ht; cases ht
    | discard l' => simp [memWrite_err_discard hc, movedOn]

/-- A plain read writes its target at most. -/
theorem memRead_transients (ht : (memRead tg sel h s).phase = .run) :
    (tg ≠ .stat → (memRead tg sel h s).stat = s.stat) ∧ (tg ≠ .data → (memRead tg sel h s).data = s.data) ∧
    (memRead tg sel h s).polls = s.polls := by
  cases hc : completion s with
  | ok b => rw [memRead_ok hc]; cases tg <;> simp [movedOn, writeTarget]
  | pending => simp [memRead_pending hc]
  | err e =>
    cases h with
    | raise => rw [memRead_err hc] at ht; cases ht
    | discard l' => simp [memRead_err_discard hc, movedOn]

/-- A poll leaves `data`. -/
theorem pollRead_data {k : Nat} (ht : (pollRead k sel s).phase = .run) : (pollRead k sel s).data = s.data := by
  cases hc : completion s with
  | ok b => simp [pollRead_ok hc, movedOn]
  | pending => simp [pollRead_pending hc]
  | err e => rw [pollRead_err hc] at ht; cases ht

/-- A delay leaves the transient registers. -/
theorem pollDelay_transients (k : Nat) (again timeout onward : Label) :
    (pollDelay k again timeout onward s).stat = s.stat ∧ (pollDelay k again timeout onward s).data = s.data ∧
    (pollDelay k again timeout onward s).polls = s.polls := by
  by_cases hc : completion s = .pending
  · simp [pollDelay_pending hc]
  · simp [pollDelay_done hc, movedOn]

end

/-- The actions that write a transient register and do not end the request. -/
theorem perform_writers (h : perform a s = .next t) (ht : t.phase = .run) :
    (t.stat ≠ s.stat → ∃ next, a = .poll next ∨ ∃ he, a = .read .stat next he) ∧
    (t.data ≠ s.data → ∃ next he, a = .read .data next he) ∧
    (t.polls ≠ s.polls → (∃ next, a = .poll next) ∨ ∃ bytes next he, a = .write bytes next he true) := by
  cases a with
  | write bytes next he begins =>
    cases h
    obtain ⟨hs, hd, hp⟩ := memWrite_transients ht
    refine ⟨absurd hs, absurd hd, fun hne => .inr ⟨bytes, next, he, ?_⟩⟩
    cases begins with
    | true => rfl
    | false => exact absurd (hp rfl) hne
  | read tg next he =>
    cases h
    obtain ⟨hs, hd, hp⟩ := memRead_transients ht
    cases tg with
    | stat => exact ⟨fun _ => ⟨next, .inr ⟨he, rfl⟩⟩, absurd (hd nofun), absurd hp⟩
    | data => exact ⟨absurd (hs nofun), fun _ => ⟨next, he, rfl⟩, absurd hp⟩
  | poll next =>
    obtain ⟨k, -, hk⟩ := withRegister_next h
    cases hk
    exact ⟨fun _ => ⟨next, .inl rfl⟩, absurd (pollRead_data ht), fun _ => .inl ⟨next, rfl⟩⟩
  | delay again timeout onward =>
    obtain ⟨k, -, hk⟩ := withRegister_next h
    cases hk
    obtain ⟨hs, hd, hp⟩ := pollDelay_transients (s := s) k again timeout onward
    exact ⟨absurd hs, absurd hd, absurd hp⟩
  | done v | fail e => cases h; cases ht
  | judgeStat f | judgeData f =>
    obtain ⟨b, -, hb⟩ := withRegister_next h
    cases hb
    rw [conclude_eq_endedWith] at ht
    cases ht

/-! ### Reading a register of the chip and returning it (R105, R106, R144) -/

section

variable {x b : Byte} {tg : ReadTarget} {bytes : List Byte} {l' l'' : Label} {he : OnErr} {c0 c1 c2 : Chip}
  {rs : List Request} {rest : List Completion}

/-- The return of the byte a read left in its target, as it stands. -/
def returnTarget : ReadTarget → Action
  | .stat => .judgeStat .ret
  | .data => .judgeData .ret

/-- A pointer write, a plain read and the return of the byte read, both transactions completing. -/
theorem run_fetch (hs : RunsAt l s) (hi : inProgress s = .instr i) (henv : s.env = .ok x :: .ok b :: rest)
    (hw : listing i l = some (.write bytes l' .raise false))
    (hr : listing i l' = some (.read tg (fun _ => l'') he)) (hj : listing i l'' = some (returnTarget tg)) :
    runSteps 3 s = .next (endedWith { s with env := rest }
      [.memWrite s.addr bytes none, .memRead s.addr (.byte b)] (responseOk b)) := by
  have hrun := hs.1
  refine Eq.trans (runSteps_succ (step_write hs hi hw henv)) ?_
  cases tg with
  | stat =>
    refine Eq.trans (runSteps_succ (step_readStat ⟨hrun, rfl⟩ (inProgress_congr hi rfl rfl rfl) hr rfl)) ?_
    refine Eq.trans (runSteps_succ (step_judgeStat ⟨hrun, rfl⟩ (inProgress_congr hi rfl rfl rfl) hj rfl)) ?_
    simp [runSteps, endedWith, verdictResponse]
  | data =>
    refine Eq.trans (runSteps_succ (step_readData ⟨hrun, rfl⟩ (inProgress_congr hi rfl rfl rfl) hr rfl)) ?_
    refine Eq.trans (runSteps_succ (step_judgeData ⟨hrun, rfl⟩ (inProgress_congr hi rfl rfl rfl) hj rfl)) ?_
    simp [runSteps, endedWith, verdictResponse]

/-- A request whose listing is one fetch: `READ_STATUS` (R105) and `READ_DATA_REGISTER` (R106). -/
theorem run_fetchRequest {r : Request} (hp : s.phase = .idle) (hq : s.requests = r :: rs)
    (hd : decodeRequest r = .ok i) (henv : s.env = .ok x :: .ok b :: rest)
    (hw : listing i (firstLabel i) = some (.write bytes l' .raise false))
    (hr : listing i l' = some (.read tg (fun _ => l'') he)) (hj : listing i l'' = some (returnTarget tg)) :
    runSteps 4 s = .next (endedWith { s with requests := rs, env := rest }
      [.memWrite s.addr bytes none, .memRead s.addr (.byte b)] (responseOk b)) := by
  rw [runSteps_succ (step_idle hp hq hd)]
  refine Eq.trans (run_fetch ⟨rfl, rfl⟩ (acceptedState_inProgress hd) henv hw hr hj) ?_
  simp [endedWith, hq]

/-- `OW_READ_BYTE` from a poll of its post-wait that finds the chip idle: the fetch, and the response with the byte
fetched (R144). -/
theorem run_readByteFromIdlePoll {k : Nat} {p : Byte} (hs : RunsAt (.wait .post .read) s)
    (hi : inProgress s = .instr .owReadByte) (hk : s.polls = some k) (hidle : p.getLsbD 0 = false)
    (henv : s.env = .ok p :: .ok x :: .ok b :: rest) :
    runSteps 4 s = .next (endedWith { s with env := rest }
      [.memRead s.addr (.byte p), .memWrite s.addr [0xE1, 0xE1] none, .memRead s.addr (.byte b)]
      (responseOk b)) := by
  have hrun := hs.1
  rw [runSteps_succ (step_pollRead rfl hi hs hk henv), hidle]
  refine Eq.trans (run_fetch ⟨hrun, rfl⟩ (inProgress_congr hi rfl rfl rfl) rfl rfl rfl rfl) ?_
  simp [endedWith, bytesSrp, selectData]

/-- An idle chip that takes the status register's pointer frame answers the next read with its status. -/
theorem chip_reads_status {r : I2cAddress} (hc : chipBusy c0 = false)
    (hsel : chipContract c0 (.memWrite r [0xE1, 0xF0] none) c1)
    (hread : chipContract c1 (.memRead r (.byte b)) c2) : b = c1.status := by
  obtain ⟨hidle, -, -, hptr⟩ := chipContract_select rfl hc hsel
  exact (chipContract_readStatus hidle hptr hread).1

/-- An idle chip that takes the data register's pointer frame answers the next read with its data, which the frame
left. -/
theorem chip_reads_data {r : I2cAddress} (hc : chipBusy c0 = false)
    (hsel : chipContract c0 (.memWrite r [0xE1, 0xE1] none) c1)
    (hread : chipContract c1 (.memRead r (.byte b)) c2) : b = c1.data ∧ c1.data = c0.data := by
  obtain ⟨hidle, hdata, -, hptr⟩ := chipContract_select rfl hc hsel
  exact ⟨(chipContract_readData hidle hptr hread).1, hdata⟩

end

/-! ### What an interpretation makes of a chip that has finished its bus operation (R32, R34, R37) -/

section

variable {b : Byte} {f : Byte → Verdict} {ans : BusAnswer} {c : Chip}

/-- An interpretation of `x[stat]` ends the request with its verdict (R10). -/
theorem exec_judgeStat (hs : RunsAt l s) (hl : listing i l = some (.judgeStat f)) (hb : s.stat = some b) :
    exec i s = .next (endedWith s [] (verdictResponse (f b))) := by
  rw [exec_listed hs hl, perform, hb, withRegister, conclude_eq_endedWith]

/-- As `exec_judgeStat`, of `x[data]`. -/
theorem exec_judgeData (hs : RunsAt l s) (hl : listing i l = some (.judgeData f)) (hb : s.data = some b) :
    exec i s = .next (endedWith s [] (verdictResponse (f b))) := by
  rw [exec_listed hs hl, perform, hb, withRegister, conclude_eq_endedWith]

/-- After a One-Wire reset: a short, or whether a device answered (R32, R141). -/
theorem owReset_reports_bus (h : chipCompleted [0xB4] ans c) :
    verdictResponse (verdictOwReset c.status) =
      if ans.shorted = true then responseErr .shortDetected else responseOk (bitByte ans.presence) := by
  obtain ⟨-, hpresence, hshorted⟩ := h
  rw [verdictOwReset, hpresence, hshorted]
  split <;> rfl

/-- After a single-bit slot of a listed payload: the bit read (R34, R142). -/
theorem owReadBit_reports_bus (h : chipCompleted [0x87, 0xFF] ans c) :
    verdictResponse (verdictOwReadBit c.status) = responseOk (bitByte ans.bit) := by
  rw [verdictOwReadBit, h.2 rfl, verdictResponse]

/-- The value of a triplet, bit by bit (R82). -/
theorem tripletValue_eq_or : ∀ dir cmp id : Bool,
    tripletValue dir cmp id =
      (if dir = true then 0x04 else 0x00) ||| (if cmp = true then 0x02 else 0x00) |||
        (if id = true then 0x01 else 0x00) := by decide

/-- After a triplet: the two bits and the direction taken (R34, R146). -/
theorem owTriplet_reports_bus {d : Bool} (h : chipCompleted [0x78, bitPay d] ans c) :
    verdictResponse (verdictOwTriplet c.status) =
      responseOk (tripletValue ans.direction ans.complement ans.bit) := by
  obtain ⟨hbit, hcomplement, hdirection⟩ := h.2 (listedPayload_bitPay d)
  rw [verdictOwTriplet, hbit, hcomplement, hdirection, verdictResponse]

end

end

/-! ### The obligations -/

/-- Settles O48: the idle block is unchanged, an accepted request stands ready at its first label, and
`perform_keeps_inv` covers RUN. -/
theorem stepsKeepSoundness : Obligations.StepsKeepSoundness := by
  intro s t h hst
  obtain ⟨-, -, rfl⟩ | ⟨hp, r, rest, i, -, hd, rfl⟩ | ⟨hp, i, l, a, hi, hs, hl, ha⟩ := step_next hst
  · exact h
  · exact inv_acceptedState ((inv_idle hp).mp h).1 hd
  · exact perform_keeps_inv ⟨hp, hs⟩ hi hl h ha

/-- Settles O47: at construction every register holds `⊥` and the bound is R6's. -/
theorem resetIsSound : Obligations.ResetIsSound :=
  (inv_idle rfl).mpr ⟨by decide, rfl, rfl⟩

/-- Settles O10: the step is the request's by `step_eq_exec_inProgress`, and the request faults where its listing
names nothing. -/
theorem runningStepIsRequestStep : Obligations.RunningStepIsRequestStep := by
  intro s i l hs hi
  have hstep := step_eq_exec_inProgress hs hi
  exact ⟨hstep, fun hl => hstep.trans (exec_unlisted (inProgress_isRequest hi) hs hl)⟩

/-- Settles O9: in IDLE step and `exec` both accept; in RUN the frame or the request in progress is run. -/
theorem stepRunsFetchedInstruction : Obligations.StepRunsFetchedInstruction := by
  refine ⟨fun s => step_noRequest, fun s r rest i hp hq hd => ?_, fun s op arg i l hs ho harg hd => ?_⟩
  · rw [step_idle hp hq hd, exec_idle (decodeRequest_isRequest hd) hp]
  · have hi : inProgress s = .instr i := inProgress_of_registers ho harg hd
    exact ⟨fun bytes next h b f hl hf => step_eq_exec_frame hs hi hl hf,
      fun _ => step_eq_exec_inProgress hs hi⟩

/-- Settles O49: acceptance and response set the transient registers to `⊥`, an action that reads one at `⊥` faults in
`withRegister`, and a sound controller finds every register its action reads. -/
theorem transientRegisters : Obligations.TransientRegisters := by
  refine ⟨fun s t h hp hq => ?_, fun s t h hp ht => ?_, fun i l s f hs hl hb => ?_, fun i l s f hs hl hb => ?_,
    fun i l s next hs hl hb => ?_, fun i l s again timeout onward hs hl hb => ?_, fun s f h => ?_⟩
  · obtain ⟨-, hnil, -⟩ | ⟨-, r, rest, i, -, -, rfl⟩ | ⟨hrun, -⟩ := step_next h
    · exact absurd hnil hq
    · exact ⟨rfl, rfl, rfl⟩
    · rw [hp] at hrun; cases hrun
  · obtain ⟨hidle, -⟩ | ⟨hidle, -⟩ | ⟨-, i, l, a, -, -, -, ha⟩ := step_next h
    · rw [hp] at hidle; cases hidle
    · rw [hp] at hidle; cases hidle
    · obtain ⟨u, acts, r, rfl⟩ := perform_to_idle hp ha ht
      exact ⟨rfl, rfl, rfl⟩
  · rw [exec_listed hs hl, perform, hb]; rfl
  · rw [exec_listed hs hl, perform, hb]; rfl
  · rw [exec_listed hs hl, perform, hb]; rfl
  · rw [exec_listed hs hl, perform, hb]; rfl
  · cases hp : s.phase with
    | idle => exact step_idle_ne_fault hp f
    | run =>
      obtain ⟨t, ht⟩ := step_run_progress hp h
      simp [ht]

/-- Settles O52: the acceptance writes none of the listed fields but those of a new request; a performed action keeps
`perform_addressed` and `perform_frame`. -/
theorem instructionFrame : Obligations.InstructionFrame := by
  intro i s t h
  obtain ⟨hp, rfl⟩ | ⟨j, l, a, -, -, ha⟩ := exec_next h
  · exact ⟨rfl, rfl, by simp [hp], by simp [hp], [], by simp⟩
  · obtain ⟨haddr, hpar, -⟩ := perform_addressed ha
    obtain ⟨hreq, hregs, htr⟩ := perform_frame ha
    exact ⟨haddr, hpar, fun _ => hreq, fun _ => hregs, htr⟩

/-- Settles O53: in RUN the step performs the listed action, and `perform_writers` says which actions write. -/
theorem transientWriters : Obligations.TransientWriters := by
  intro i l s t hs hi h ht
  obtain ⟨hidle, -⟩ | ⟨hidle, -⟩ | ⟨-, j, l', a, hj, hl', hl, ha⟩ := step_next h
  · rw [hs.1] at hidle; cases hidle
  · rw [hs.1] at hidle; cases hidle
  · rw [hi] at hj
    rw [hs.2] at hl'
    cases hj
    cases hl'
    simp only [hl, Option.some.injEq]
    exact perform_writers ha ht

/-- Settles O56: the runs of the two requests, with the byte read replaced by the register the contract names. -/
theorem chipRegistersReported : Obligations.ChipRegistersReported := by
  intro s rs x b rest c0 c1 c2 hp henv hc hread
  refine ⟨fun hq hsel => ?_, fun hq hsel => ?_⟩
  · obtain rfl := chip_reads_status hc hsel hread
    exact run_fetchRequest hp hq rfl henv rfl rfl rfl
  · obtain ⟨rfl, -⟩ := chip_reads_data hc hsel hread
    exact run_fetchRequest hp hq rfl henv rfl rfl rfl

/-- Settles O57: each primitive interprets its register at INT, and the finished chip has the bus's answer in it. -/
theorem chipResultsReported : Obligations.ChipResultsReported := by
  intro s ans c hs
  refine ⟨fun h hb => ?_, fun h hb => ?_, fun d h hb => ?_, fun h hb => ?_⟩
  · rw [exec_judgeStat (f := verdictOwReset) hs rfl hb, owReset_reports_bus h]; rfl
  · rw [exec_judgeStat (f := verdictOwReadBit) hs rfl hb, owReadBit_reports_bus h]; rfl
  · rw [exec_judgeStat (f := verdictOwTriplet) hs rfl hb, owTriplet_reports_bus (d := d) h, tripletValue_eq_or]; rfl
  · rw [exec_judgeData (f := .ret) hs rfl hb, h.2]; rfl

/-- Settles O58: the last poll reads the idle chip's status and leaves its data register, so the fetch reads the byte
received. -/
theorem receivedByteFetched : Obligations.ReceivedByteFetched := by
  intro s ans c c0 c1 c2 k p x b rest hs hi hk henv hdone hptr hpoll hsel hread
  obtain ⟨hidle, hbyte⟩ := hdone
  obtain ⟨rfl, hidle0, hdata0, -⟩ := chipContract_readStatus hidle hptr hpoll
  obtain ⟨hb, hdata1⟩ := chip_reads_data hidle0 hsel hread
  obtain rfl : b = ans.byte := calc
    b = c1.data := hb
    _ = c0.data := hdata1
    _ = c.data := hdata0
    _ = ans.byte := hbyte
  exact run_readByteFromIdlePoll hs hi hk hidle henv

end Sys2Proof.Machine
end

section
/-! PROOFS. The memory family of spec/20_memory.md: O12 (the request port, R63, R71), O36 (the frames, R76) and O54 and
O55 (the environment's completions, R51 to R53; log 4). -/

namespace Sys2Proof.Machine

/-- The operation code, argument and payload accepted for a decoded request are those it was presented with (R71). -/
theorem requestFields_eq_of_decode {r : Request} {i : Instr} (h : decodeRequest r = .ok i) :
    requestFields i = (requestOp r, requestArg r, r.wbuf) := by
  have hr := decodeRequest_fields h
  generalize requestFields i = fields at hr ⊢
  simp [hr]

/-- With `env` used up the completion is the free one at `draws` (log 4). -/
theorem completion_nil {s : State} (h : s.env = []) : completion s = Config.completion s.draws := by
  simp [completion, h]

/-- With `env` used up a draw advances the counter and nothing else (log 4). -/
theorem consume_nil {s : State} (h : s.env = []) : consume s = { s with draws := s.draws + 1 } := by
  simp [consume, h]

/-- Settles O12: in RUN a performed action keeps the port (`perform_frame`); in IDLE the step accepts the head request,
whose fields the decoded instruction has. -/
theorem requestTakenOnlyWhenIdle : Obligations.RequestTakenOnlyWhenIdle := by
  intro s t h
  obtain ⟨hp, hq, -⟩ | ⟨hp, r, rest, i, hq, hd, rfl⟩ | ⟨hp, i, l, a, -, -, -, ha⟩ := step_next h
  · exact ⟨by simp [hp], by simp [hq]⟩
  · refine ⟨by simp [hp], fun r' rest' _ hq' => ?_⟩
    obtain ⟨rfl, rfl⟩ : r = r' ∧ rest = rest' := by simpa [hq] using hq'
    simp [requestFields_eq_of_decode hd, hq, requestOp, requestArg]
  · exact ⟨fun _ => (perform_frame ha).1, by simp [hp]⟩

/-- Settles O36: each frame is the instruction its bytes decode to (R76), so `emitsFrame_of_encode` gives its write. -/
theorem framesAreOneWrite : Obligations.FramesAreOneWrite :=
  ⟨emitsFrame_of_encode rfl rfl rfl,
    fun _ => emitsFrame_of_encode rfl rfl rfl,
    emitsFrame_of_encode rfl rfl rfl,
    fun _ => emitsFrame_of_encode rfl rfl rfl,
    emitsFrame_of_encode rfl rfl rfl,
    fun _ => emitsFrame_of_encode rfl rfl rfl,
    fun _ => emitsFrame_of_encode rfl rfl rfl,
    fun _ => emitsFrame_of_encode rfl rfl rfl⟩

/-- Settles O54: the two branches of a draw, by whether `env` still lists a completion. -/
theorem completionSource : Obligations.CompletionSource :=
  ⟨fun _ _ _ h => ⟨completion_cons h, consume_cons h⟩, fun _ h => ⟨completion_nil h, consume_nil h⟩⟩

/-- Settles O55: the step performs the listed action, and each of the four port actions only draws the completion while
it is pending. -/
theorem blockedUntilCompletion : Obligations.BlockedUntilCompletion := by
  intro s i l hs hi hc
  refine ⟨fun bytes next h b hl => ?_, fun tg next h hl => ?_, fun next k hk hl => ?_,
    fun again timeout onward k hk hl => ?_⟩
  · rw [step_run hs hi hl, perform, memWrite_pending hc]
  · rw [step_run hs hi hl, perform, memRead_pending hc]
  · rw [step_run hs hi hl, perform, hk, withRegister, pollRead_pending hc]
  · rw [step_run hs hi hl, perform, hk, withRegister, pollDelay_pending hc]

end Sys2Proof.Machine
end

section
/-! PROOFS. The encoding family of spec/30_encoding.md: O1 to O7 (the decoder, the encoder and the operand forms), O11
(acceptance), O37, O39 and O42 (whole runs), and O45, O46 and O50 (responses and stops). -/

namespace Sys2Proof.Machine

/-! ### The decoder and the encoder (R71 to R76) -/

section

variable {i : Instr} {op : BitVec 4} {arg n : Byte} {bytes : List Byte} {wbuf : Option (List Byte)}

/-- A request's encoding is the word and the payload of its fields (R71, R72). -/
theorem encode_request (h : isRequest i = true) :
    encode i = .request
      { word := requestWord (requestFields i).1 (requestFields i).2.1, wbuf := (requestFields i).2.2 } := by
  cases i with
  | frameDrst | frameWcfg | frame1wrs | frame1wsb | frame1wrb | frame1wwb | frame1wt | frameSrp => cases h
  | _ => rfl

/-- Every frame is well formed: R74 speaks of requests. -/
theorem wellFormed_of_frame (h : isRequest i = false) : i.wellFormed = true := by
  cases i with
  | frameDrst | frameWcfg | frame1wrs | frame1wsb | frame1wrb | frame1wwb | frame1wt | frameSrp => rfl
  | _ => cases h

theorem wellFormed_writeBytes :
    (Instr.writeBytes n bytes).wellFormed = true ↔ n ≠ 0x00 ∧ bytes.length = n.toNat := by
  simp [Instr.wellFormed]

/-- `WRITE_BYTES` takes the payload as it was given (R73). -/
theorem decodeRequest_writeBytes :
    decodeRequest { word := requestWord 0x6#4 n, wbuf := wbuf } = decodeWriteBytes n wbuf := by
  simp [decodeRequest]

/-- Any other operation takes no payload (R74). -/
theorem decodeRequest_payloadGiven (h : op ≠ 0x6#4) :
    decodeRequest { word := requestWord op arg, wbuf := some bytes } = .error .payloadGiven := by
  simp [decodeRequest, h]

/-- Without a payload, the table of R72 decides. -/
theorem decodeRequest_operation (h : op ≠ 0x6#4) :
    decodeRequest { word := requestWord op arg, wbuf := none } = decodeOperation op arg := by
  simp [decodeRequest, h]

theorem decodeWriteBytes_of_wellFormed (h : (Instr.writeBytes n bytes).wellFormed = true) :
    decodeWriteBytes n (some bytes) = .ok (.writeBytes n bytes) := by
  obtain ⟨hn, hlen⟩ := wellFormed_writeBytes.mp h
  rw [decodeWriteBytes, if_neg hn]
  exact if_pos hlen

/-- What the request decoder gives is well formed (R73, R74). -/
theorem decodeRequest_wellFormed {r : Request} (h : decodeRequest r = .ok i) : i.wellFormed = true := by
  cases i with
  | writeBytes n bytes =>
    rw [decodeRequest_fields h] at h
    obtain ⟨_, hw, -, hn, hlen⟩ := decodeWriteBytes_ok (decodeRequest_writeBytes.symm.trans h)
    cases hw
    exact wellFormed_writeBytes.mpr ⟨hn, hlen⟩
  | _ => rfl

end

/-- Settles O2: the operands with reserved bits go through `decodeConfig_zext8` and `decodeBit_bitByte`, the payload
through `decodeWriteBytes_of_wellFormed`; the other rows of R72 and R76 are read off the tables. -/
theorem decodeEncodeAgree : Obligations.DecodeEncodeAgree := by
  intro i h
  cases i with
  | writeConfig c => exact (decodeRequest_operation (by decide)).trans (decodeConfig_zext8 c)
  | owWriteBit v => exact (decodeRequest_operation (by decide)).trans (decodeBit_bitByte .owWriteBit v)
  | owTriplet d => exact (decodeRequest_operation (by decide)).trans (decodeBit_bitByte .owTriplet d)
  | setReadPointer p | owWriteByte p => exact decodeRequest_operation (by decide)
  | writeBytes n bytes => exact decodeRequest_writeBytes.trans (decodeWriteBytes_of_wellFormed h)
  | _ => rfl

/-- Settles O3: a decoded request has the fields it was read from, and a decoded frame is `decodeWholeFrame_ok`'s. -/
theorem decodedIsItsEncoding : Obligations.DecodedIsItsEncoding := by
  intro e i h
  cases e with
  | request r =>
    have hfields : r = _ := decodeRequest_fields h
    refine ⟨?_, decodeRequest_wellFormed h⟩
    rw [encode_request (decodeRequest_isRequest h), ← hfields]
  | frame bytes =>
    obtain ⟨hframe, henc⟩ := decodeWholeFrame_ok h
    exact ⟨henc, wellFormed_of_frame hframe⟩

section

variable {i : Instr} {op : BitVec 4} {arg : Byte} {wbuf : Option (List Byte)}

/-! The requests R74 refuses, by the part of the decoder that refuses them. -/

theorem decodeNoArgument_refuses : (∃ why, decodeNoArgument i arg = .error why) ↔ arg ≠ 0x00#8 := by
  unfold decodeNoArgument
  split <;> simp_all

theorem decodeConfig_refuses : (∃ why, decodeConfig arg = .error why) ↔ arg.extractLsb' 4 4 ≠ 0#4 := by
  unfold decodeConfig
  split <;> simp_all

theorem decodeBit_refuses {f : Bool → Instr} :
    (∃ why, decodeBit f arg = .error why) ↔ arg.extractLsb' 1 7 ≠ 0#7 := by
  unfold decodeBit
  split <;> simp_all

theorem decodeWriteBytes_refuses : (∃ why, decodeWriteBytes arg wbuf = .error why) ↔
    arg = 0x00#8 ∨ ∀ bytes, wbuf = some bytes → bytes.length ≠ arg.toNat := by
  unfold decodeWriteBytes
  split
  · simp_all
  · cases wbuf with
    | none => simp
    | some bytes => dsimp only; split <;> simp_all

/-- The operations other than `WRITE_BYTES`, by what R74 asks of their argument. -/
theorem operation_argument_cases : ∀ op : BitVec 4, op ≠ 0x6#4 →
    op ∈ [0x0#4, 0x3#4, 0x4#4, 0x5#4, 0x7#4, 0x8#4, 0x9#4, 0xB#4, 0xE#4, 0xF#4] ∨
    op = 0x1#4 ∨ (op = 0xA#4 ∨ op = 0xD#4) ∨ (op = 0x2#4 ∨ op = 0xC#4) := by decide

/-- The ten operations that take no argument (R72). -/
theorem decodeOperation_noArgument
    (h : op ∈ [0x0#4, 0x3#4, 0x4#4, 0x5#4, 0x7#4, 0x8#4, 0x9#4, 0xB#4, 0xE#4, 0xF#4]) :
    ∃ i, decodeOperation op arg = decodeNoArgument i arg := by
  simp only [List.mem_cons, List.not_mem_nil, or_false] at h
  rcases h with rfl | rfl | rfl | rfl | rfl | rfl | rfl | rfl | rfl | rfl <;> exact ⟨_, rfl⟩

/-- Of these ten, R74 asks only for a zero argument. -/
theorem illFormedRequest_noArgument
    (h : op ∈ [0x0#4, 0x3#4, 0x4#4, 0x5#4, 0x7#4, 0x8#4, 0x9#4, 0xB#4, 0xE#4, 0xF#4]) :
    illFormedRequest op arg none ↔ arg ≠ 0x00#8 := by
  simp only [List.mem_cons, List.not_mem_nil, or_false] at h
  rcases h with rfl | rfl | rfl | rfl | rfl | rfl | rfl | rfl | rfl | rfl <;> simp [illFormedRequest]

/-- Without a payload, an operation other than `WRITE_BYTES` is refused for its argument only. -/
theorem decodeOperation_refuses (h : op ≠ 0x6#4) :
    (∃ why, decodeOperation op arg = .error why) ↔ illFormedRequest op arg none := by
  rcases operation_argument_cases op h with hop | rfl | (rfl | rfl) | (rfl | rfl)
  · obtain ⟨i, hi⟩ := decodeOperation_noArgument (arg := arg) hop
    rw [hi, decodeNoArgument_refuses, illFormedRequest_noArgument hop]
  · exact decodeConfig_refuses.trans (by simp [illFormedRequest])
  · exact decodeBit_refuses.trans (by simp [illFormedRequest])
  · exact decodeBit_refuses.trans (by simp [illFormedRequest])
  · simp [illFormedRequest, decodeOperation]
  · simp [illFormedRequest, decodeOperation]

/-- The decoder refuses exactly the requests R74 lists. -/
theorem decodeRequest_refuses :
    (∃ why, decodeRequest { word := requestWord op arg, wbuf := wbuf } = .error why) ↔
      illFormedRequest op arg wbuf := by
  by_cases h : op = 0x6#4
  · subst h
    rw [decodeRequest_writeBytes, decodeWriteBytes_refuses]
    simp [illFormedRequest]
  · cases wbuf with
    | none => rw [decodeRequest_operation h, decodeOperation_refuses h]
    | some bytes => simp [decodeRequest_payloadGiven h, illFormedRequest, h]

end

/-- Settles O4: in IDLE the step is decided by the decoder, which refuses what R74 lists (`decodeRequest_refuses`). -/
theorem illFormedRequestsRefused : Obligations.IllFormedRequestsRefused := by
  intro op arg wbuf s rest hp hq
  refine ⟨fun hill => ?_, fun hwell => ?_⟩
  · obtain ⟨why, hd⟩ := decodeRequest_refuses.mpr hill
    exact ⟨why, step_illFormed hp hq hd⟩
  · cases hd : decodeRequest { word := requestWord op arg, wbuf := wbuf } with
    | ok i => exact ⟨_, step_idle hp hq hd⟩
    | error why => exact absurd (decodeRequest_refuses.mp ⟨why, hd⟩) hwell

/-- Settles O50: in IDLE the head request decodes or is refused; in RUN `step_run_progress` makes a step. -/
theorem onlyIllFormedRequestsStop : Obligations.OnlyIllFormedRequestsStop := by
  intro s h
  cases hp : s.phase with
  | run => exact .inl (step_run_progress hp h)
  | idle =>
    cases hq : s.requests with
    | nil => exact .inl ⟨s, step_noRequest hp hq⟩
    | cons r rest =>
      cases hd : decodeRequest r with
      | ok i => exact .inl ⟨_, step_idle hp hq hd⟩
      | error why => exact .inr ⟨rfl, r, rest, why, rfl, hd, step_illFormed hp hq hd⟩

/-! ### Responses (R82, R180) -/

/-- The responses the block can give: one with a value, or the error of a name (R82, R180). -/
def givenResponse (r : Response) : Prop := (∃ v, r = responseOk v) ∨ ∃ e, r = responseErr e

theorem responses_append (p q : List PortAction) : responses (p ++ q) = responses p ++ responses q :=
  List.filterMap_append

/-- A transaction or a delay is no response. -/
theorem responses_busAction {p : PortAction} (h : isBusAction p = true) : responses [p] = [] := by
  cases p with
  | respond r => cases h
  | _ => rfl

section

variable {s t : State}

/-- A performed action gives no response while the block stays in RUN, and exactly one when it takes it to IDLE. -/
theorem perform_responses {a : Action} (hp : s.phase = .run) (h : perform a s = .next t) :
    ∃ acts, t.trace = s.trace ++ acts ∧
      ((t.phase = .run ∧ responses acts = []) ∨
        (t.phase = .idle ∧ ∃ r, givenResponse r ∧ responses acts = [r])) := by
  obtain ⟨-, -, rfl⟩ | ⟨-, -, p, l, hbus, -, ht⟩ | ⟨-, v, rfl⟩ | ⟨-, e, -, rfl⟩ | ⟨-, p, e, -, hbus, -, rfl⟩ :=
    perform_next h
  · exact ⟨[], by simp, .inl ⟨by simpa using hp, rfl⟩⟩
  · rw [ht]
    exact ⟨[p], rfl, .inl ⟨(consume_phase s).trans hp, responses_busAction hbus⟩⟩
  · exact ⟨[.respond (responseOk v)], by simp [endedWith], .inr ⟨rfl, _, .inl ⟨v, rfl⟩, rfl⟩⟩
  · exact ⟨[.respond (responseErr e)], by simp [endedWith], .inr ⟨rfl, _, .inr ⟨e, rfl⟩, rfl⟩⟩
  · have hraise : givenResponse (responseErr (.i2cCommunication e)) := .inr ⟨_, rfl⟩
    refine ⟨[p] ++ [.respond (responseErr (.i2cCommunication e))], ?_, .inr ⟨rfl, _, hraise, ?_⟩⟩
    · simp [endedByTransport, endedWith, responseErr, errorCode, errorTerr]
    · rw [responses_append, responses_busAction hbus]; rfl

/-- A step adds one response where it takes the block from RUN to IDLE, and none elsewhere. -/
theorem step_responses (h : step s = .next t) :
    ∃ acts, t.trace = s.trace ++ acts ∧
      ((¬ (s.phase = .run ∧ t.phase = .idle) ∧ responses acts = []) ∨
        ((s.phase = .run ∧ t.phase = .idle) ∧ ∃ r, givenResponse r ∧ responses acts = [r])) := by
  obtain ⟨hp, -, rfl⟩ | ⟨hp, r, rest, i, -, -, rfl⟩ | ⟨hp, i, l, a, -, -, -, ha⟩ := step_next h
  · exact ⟨[], by simp, .inl ⟨by simp [hp], rfl⟩⟩
  · exact ⟨[], by simp, .inl ⟨by simp [hp], rfl⟩⟩
  · obtain ⟨acts, htr, ⟨ht, hr⟩ | ⟨ht, hr⟩⟩ := perform_responses hp ha
    · exact ⟨acts, htr, .inl ⟨by simp [ht], hr⟩⟩
    · exact ⟨acts, htr, .inr ⟨⟨hp, ht⟩, hr⟩⟩

end

/-- Settles O46: the responses `step_responses` adds, counted. -/
theorem oneResponsePerRequest : Obligations.OneResponsePerRequest := by
  intro s t h
  obtain ⟨acts, htr, ⟨hend, hr⟩ | ⟨hend, r, -, hr⟩⟩ := step_responses h
  · rw [htr, responses_append, hr, if_neg hend]; simp
  · rw [htr, responses_append, hr, if_pos hend]; simp

/-- Settles O45: every response a step adds is `responseOk` or `responseErr` of an error of R180. -/
theorem responseFormat : Obligations.ResponseFormat := by
  intro s t acts r h htr hmem
  obtain ⟨acts', htr', hcases⟩ := step_responses h
  obtain rfl : acts = acts' := List.append_cancel_left (htr.symm.trans htr')
  obtain ⟨-, hr⟩ | ⟨-, r', hgiven, hr⟩ := hcases
  · simp [hr] at hmem
  · obtain rfl : r = r' := by simpa [hr] using hmem
    obtain ⟨v, rfl⟩ | ⟨e, rfl⟩ := hgiven
    · exact ⟨fun _ => ⟨rfl, rfl⟩, nofun⟩
    · exact ⟨nofun, fun _ => by cases e <;> simp [responseErr, errorCode, errorTerr]⟩

/-! ### Whole runs of the register requests (R100 to R107) -/

section

variable {s : State} {i : Instr} {r : Request} {rs : List Request} {x b : Byte} {rest : List Completion}
  {bytes : List Byte} {l' l'' : Label} {he : OnErr}

/-- A request that sends one frame and succeeds: `SET_READ_POINTER` (R103) and `WRITE_BYTES` (R107). -/
theorem run_writeRequest (hp : s.phase = .idle) (hq : s.requests = r :: rs) (hd : decodeRequest r = .ok i)
    (henv : s.env = .ok x :: rest) (hw : listing i (firstLabel i) = some (.write bytes l' he false))
    (hj : listing i l' = some (.done 0x00)) :
    runSteps 3 s = .next (endedWith { s with requests := rs, env := rest }
      [.memWrite s.addr bytes none] (responseOk 0x00)) := by
  have hi := acceptedState_inProgress (s := s) hd
  rw [runSteps_succ (step_idle hp hq hd)]
  refine Eq.trans (runSteps_succ (step_write ⟨rfl, rfl⟩ hi hw henv)) ?_
  refine Eq.trans (runSteps_succ (step_done ⟨rfl, rfl⟩ (inProgress_congr hi rfl rfl rfl) hj)) ?_
  simp [runSteps, endedWith, hq]

/-- A plain read whose byte is the response: `REG_READ_BYTE` (R104). -/
theorem run_readRequest (hp : s.phase = .idle) (hq : s.requests = r :: rs) (hd : decodeRequest r = .ok i)
    (henv : s.env = .ok b :: rest) (hr : listing i (firstLabel i) = some (.read .data (fun _ => l') he))
    (hj : listing i l' = some (.judgeData .ret)) :
    runSteps 3 s = .next (endedWith { s with requests := rs, env := rest }
      [.memRead s.addr (.byte b)] (responseOk b)) := by
  have hi := acceptedState_inProgress (s := s) hd
  rw [runSteps_succ (step_idle hp hq hd)]
  refine Eq.trans (runSteps_succ (step_readData ⟨rfl, rfl⟩ hi hr henv)) ?_
  refine Eq.trans (runSteps_succ (step_judgeData ⟨rfl, rfl⟩ (inProgress_congr hi rfl rfl rfl) hj rfl)) ?_
  simp [runSteps, endedWith, hq, verdictResponse]

/-- `DEVICE_RESET`: the frame, the status read with no pointer write before it, and the verdict on it (R100). -/
theorem run_deviceReset (hp : s.phase = .idle) (hq : s.requests = r :: rs)
    (hd : decodeRequest r = .ok .deviceReset) (henv : s.env = .ok x :: .ok b :: rest) :
    runSteps 4 s = .next (endedWith { s with requests := rs, env := rest }
      [.memWrite s.addr [0xF0] none, .memRead s.addr (.byte b)] (verdictResponse (verdictDeviceReset b))) := by
  have hi := acceptedState_inProgress (s := s) hd
  rw [runSteps_succ (step_idle hp hq hd)]
  refine Eq.trans (runSteps_succ (step_write ⟨rfl, rfl⟩ hi rfl henv)) ?_
  refine Eq.trans (runSteps_succ (step_readStat ⟨rfl, rfl⟩ (inProgress_congr hi rfl rfl rfl) rfl rfl)) ?_
  refine Eq.trans (runSteps_succ (step_judgeStat ⟨rfl, rfl⟩ (inProgress_congr hi rfl rfl rfl) rfl rfl)) ?_
  simp [runSteps, endedWith, hq, bytesDrst]

/-- The response of `DEVICE_RESET`: success iff RST, bit 4 (R100). -/
theorem verdictResponse_deviceReset :
    verdictResponse (verdictDeviceReset b) =
      if b.getLsbD 4 = true then responseOk 0x00 else responseErr .deviceReset := by
  unfold verdictDeviceReset statusRst
  split <;> rfl

end

/-- Settles O37: `run_deviceReset`, `run_writeRequest`, `run_readRequest` and `run_fetchRequest` at the listings of
R100 and R103 to R107. -/
theorem registerRequestsRun : Obligations.RegisterRequestsRun := by
  intro s rs x b rest hp
  refine ⟨fun hq henv => ?_, fun p hq henv => ?_, fun hq henv => ?_, fun hq henv => ?_, fun hq henv => ?_,
    fun n bytes hn hlen hq henv => ?_⟩
  · rw [run_deviceReset hp hq rfl henv, verdictResponse_deviceReset]; rfl
  · exact run_writeRequest (i := .setReadPointer p) hp hq (decodeRequest_operation (by decide)) henv rfl rfl
  · exact run_readRequest hp hq rfl henv rfl rfl
  · exact run_fetchRequest hp hq rfl henv rfl rfl rfl
  · exact run_fetchRequest hp hq rfl henv rfl rfl rfl
  · have hd := decodeWriteBytes_of_wellFormed (wellFormed_writeBytes.mpr ⟨hn, hlen⟩)
    exact run_writeRequest hp hq (decodeRequest_writeBytes.trans hd) henv rfl rfl

/-- The expansion of a pseudo-instruction: the second request starts in the state the first left (R83). -/
theorem run_setReadPointer_regReadByte {s : State} {p x b : Byte} {rs : List Request} {rest : List Completion}
    (hp : s.phase = .idle)
    (hq : s.requests = { word := 0x2#4 ++ p, wbuf := none } :: { word := 0x300#12, wbuf := none } :: rs)
    (henv : s.env = .ok x :: .ok b :: rest) :
    ∃ t, runSteps 6 s = .next t ∧ t.trace = s.trace ++
      [.memWrite s.addr [0xE1, p] none, .respond (responseOk 0x00), .memRead s.addr (.byte b),
        .respond (responseOk b)] := by
  have hfirst := run_writeRequest (i := .setReadPointer p) hp hq (decodeRequest_operation (by decide)) henv rfl rfl
  refine ⟨_, (runSteps_add hfirst).trans (run_readRequest rfl rfl rfl rfl rfl rfl), ?_⟩
  simp [endedWith, bytesSrp]

/-- Settles O42: each pseudo-instruction is one fetch, and its expansion is `run_setReadPointer_regReadByte` with the
same select code. -/
theorem pseudoInstructionsAgree : Obligations.PseudoInstructionsAgree := by
  intro s x b rest hp henv
  refine ⟨fun hq => ?_, fun hq => run_setReadPointer_regReadByte hp hq henv, fun hq => ?_,
    fun hq => run_setReadPointer_regReadByte hp hq henv⟩
  · exact ⟨_, run_fetchRequest hp hq rfl henv rfl rfl rfl, by simp [endedWith, bytesSrp, selectStatus]⟩
  · exact ⟨_, run_fetchRequest hp hq rfl henv rfl rfl rfl, by simp [endedWith, bytesSrp, selectData]⟩

/-! ### Whole runs of the One-Wire primitives (R140 to R146) -/

section

variable {s : State} {i : Instr} {r : Request} {rs : List Request} {frame : List Byte} {onward : Label}
  {x p y z q : Byte} {rest : List Completion}

/-- The registers of a primitive after its post-wait, both waits having found the chip idle at the first poll. -/
def postWaitState (i : Instr) (onward : Label) (q : Byte) (rest : List Completion) (acts : List PortAction)
    (s : State) : State :=
  { acceptedState i s with
    env := rest, polls := some 1, stat := some q, step := some onward, trace := s.trace ++ acts }

/-- The five port actions of a primitive's common sequence on an idle chip (R140). -/
def primitiveTrace (a : I2cAddress) (frame : List Byte) (p q : Byte) : List PortAction :=
  [.memWrite a [0xE1, 0xF0] none, .memRead a (.byte p), .memWrite a frame none,
    .memWrite a [0xE1, 0xF0] none, .memRead a (.byte q)]

/-- PRE, CMD and POST of a primitive, from the request on. -/
theorem run_primitive_postWait (hf : commandFrame i = some frame) (hw : waitOf i .post = some onward)
    (hp : s.phase = .idle) (hq : s.requests = r :: rs) (hd : decodeRequest r = .ok i)
    (hpre : p.getLsbD 0 = false) (hpost : q.getLsbD 0 = false)
    (henv : s.env = .ok x :: .ok p :: .ok y :: .ok z :: .ok q :: rest) :
    runSteps 6 s = .next (postWaitState i onward q rest (primitiveTrace s.addr frame p q) s) := by
  obtain ⟨-, hfirst, hwpre, hcmd, -⟩ := commandFrame_facts hf
  have hi := acceptedState_inProgress (s := s) hd
  rw [runSteps_succ (step_idle hp hq hd)]
  refine Eq.trans (runSteps_add (n := 3) (run_idlePoll (k := 0) hwpre hi (.inr ⟨⟨rfl, ?_⟩, rfl⟩) hpre henv)) ?_
  · simp [hfirst]
  refine Eq.trans (runSteps_succ (step_write ⟨rfl, rfl⟩ (inProgress_congr hi rfl rfl rfl) hcmd rfl)) ?_
  refine Eq.trans (run_idlePoll (k := 0) hw (inProgress_congr hi rfl rfl rfl) (.inr ⟨⟨rfl, rfl⟩, rfl⟩) hpost rfl) ?_
  simp [postWaitState, primitiveTrace, acceptedState]

/-- The response of a primitive that interprets the post-wait status or nothing (R141 to R143, R145, R146). -/
def primitiveResponse (i : Instr) (q : Byte) : Response :=
  match i with
  | .owReset => verdictResponse (verdictOwReset q)
  | .owReadBit => verdictResponse (verdictOwReadBit q)
  | .owTriplet _ => verdictResponse (verdictOwTriplet q)
  | _ => responseOk 0x00

/-- INT of every primitive but `OW_READ_BYTE`. -/
theorem step_primitive_int (hf : commandFrame i = some frame) (hne : i ≠ .owReadByte) (hs : RunsAt .int s)
    (hi : inProgress s = .instr i) (hb : s.stat = some q) :
    step s = .next (endedWith s [] (primitiveResponse i q)) := by
  cases i with
  | owReset | owReadBit | owTriplet d => exact step_judgeStat hs hi rfl hb
  | owWriteBit v | owWriteByte v => exact step_done hs hi rfl
  | owReadByte => exact absurd rfl hne
  | _ => cases hf

theorem waitOf_post (hf : commandFrame i = some frame) (hne : i ≠ .owReadByte) :
    waitOf i .post = some .int := by
  cases i with
  | owReadByte => exact absurd rfl hne
  | owReset | owReadBit | owTriplet d | owWriteBit v | owWriteByte v => rfl
  | _ => cases hf

/-- A primitive but `OW_READ_BYTE` on an idle chip. -/
theorem run_primitive (hf : commandFrame i = some frame) (hne : i ≠ .owReadByte)
    (hp : s.phase = .idle) (hq : s.requests = r :: rs) (hd : decodeRequest r = .ok i)
    (hpre : p.getLsbD 0 = false) (hpost : q.getLsbD 0 = false)
    (henv : s.env = .ok x :: .ok p :: .ok y :: .ok z :: .ok q :: rest) :
    runSteps 7 s = .next (endedWith { s with requests := rs, env := rest }
      (primitiveTrace s.addr frame p q) (primitiveResponse i q)) := by
  have hrun := run_primitive_postWait hf (waitOf_post hf hne) hp hq hd hpre hpost henv
  have hi := inProgress_congr (acceptedState_inProgress (s := s) hd)
    (t := postWaitState i .int q rest (primitiveTrace s.addr frame p q) s) rfl rfl rfl
  refine Eq.trans (runSteps_add (n := 1) hrun) ?_
  refine Eq.trans (runSteps_succ (step_primitive_int hf hne ⟨rfl, rfl⟩ hi rfl)) ?_
  simp [runSteps, endedWith, postWaitState, acceptedState, hq]

/-- `OW_READ_BYTE` on an idle chip: its result is fetched after the post-wait (R144). -/
theorem run_owReadByte {w b : Byte} (hp : s.phase = .idle) (hq : s.requests = r :: rs)
    (hd : decodeRequest r = .ok .owReadByte) (hpre : p.getLsbD 0 = false) (hpost : q.getLsbD 0 = false)
    (henv : s.env = .ok x :: .ok p :: .ok y :: .ok z :: .ok q :: .ok w :: .ok b :: rest) :
    runSteps 9 s = .next (endedWith { s with requests := rs, env := rest }
      (primitiveTrace s.addr [0x96] p q ++ [.memWrite s.addr [0xE1, 0xE1] none, .memRead s.addr (.byte b)])
      (responseOk b)) := by
  have hrun := run_primitive_postWait rfl rfl hp hq hd hpre hpost henv
  have hi := inProgress_congr (acceptedState_inProgress (s := s) hd)
    (t := postWaitState .owReadByte .fetchSelect q (.ok w :: .ok b :: rest) (primitiveTrace s.addr [0x96] p q) s)
    rfl rfl rfl
  refine Eq.trans (runSteps_add (n := 3) hrun) ?_
  refine Eq.trans (run_fetch ⟨rfl, rfl⟩ hi rfl rfl rfl rfl) ?_
  simp [endedWith, postWaitState, acceptedState, hq, bytesSrp, selectData]

/-- A triplet's value is bits 7 to 5 of the status (R146). -/
theorem verdictOwTriplet_eq_shift : ∀ q : Byte, verdictOwTriplet q = .ret (q >>> 5) := by decide

/-- `OW_RESET` responds as R141 says: SD first, then presence. -/
theorem verdictResponse_owReset :
    verdictResponse (verdictOwReset q) =
      if q.getLsbD 2 = true then responseErr .shortDetected else responseOk (bitByte (q.getLsbD 1)) := by
  unfold verdictOwReset statusSd statusPpd
  split <;> rfl

end

/-- Settles O39: `run_primitive` with each primitive's interpretation, and `run_owReadByte`. -/
theorem primitivesRunOnIdleChip : Obligations.PrimitivesRunOnIdleChip := by
  intro i frame s r rs x p y z q rest hf hp hq hd hpre hpost _
  refine ⟨fun hne henv => ?_, fun w b hi henv => ?_⟩
  · rw [run_primitive hf hne hp hq hd hpre hpost henv]
    cases i with
    | owReset => rw [primitiveResponse, verdictResponse_owReset]; rfl
    | owTriplet d => rw [primitiveResponse, verdictOwTriplet_eq_shift]; rfl
    | owReadByte => exact absurd rfl hne
    | owReadBit | owWriteBit v | owWriteByte v => rfl
    | _ => cases hf
  · subst hi
    cases hf
    exact run_owReadByte hp hq hd hpre hpost henv

/-! ### Tables and operand forms (R72, R76 to R80) -/

/-- Settles O1: eleven closed words, evaluated. -/
theorem specWordsDecode : Obligations.SpecWordsDecode := by
  unfold Obligations.SpecWordsDecode; decide

/-- The first byte of a frame is one of the eight commands of R76, or the decoder refuses it. -/
theorem decodeFrame_unknown {cmd : Byte} {rest : List Byte}
    (h : cmd ∉ [0xF0#8, 0xB4#8, 0x96#8, 0xD2#8, 0x87#8, 0xA5#8, 0x78#8, 0xE1#8]) :
    decodeFrame (cmd :: rest) = .error (.unknownCommand cmd) := by
  unfold decodeFrame
  dsimp only
  split
  on_goal 9 => rfl
  all_goals exact absurd (by decide) h

/-- Settles O5: the eight commands one by one, any other by `decodeFrame_unknown`, and the write of R107. -/
theorem frameLengthFromFirstByte : Obligations.FrameLengthFromFirstByte := by
  refine ⟨fun cmd rest h => ?_, fun cmd b rest h => ?_, fun cmd h => ?_, fun cmd rest => decodeFrame_unknown,
    fun n bytes => writesAt_of_listing rfl rfl⟩ <;>
    simp only [List.mem_cons, List.not_mem_nil, or_false] at h
  · rcases h with rfl | rfl | rfl <;> exact ⟨_, rfl, rfl⟩
  · rcases h with rfl | rfl | rfl | rfl | rfl <;> exact ⟨_, rfl, rfl⟩
  · rcases h with rfl | rfl | rfl | rfl | rfl <;> rfl

/-- Settles O6: the two halves of `cfgByte c` give the complement and the xor, and L1 of R101 sends the byte. -/
theorem configurationByte : Obligations.ConfigurationByte := by
  refine ⟨fun c => ?_, by decide, by decide, by decide, by decide⟩
  have halves : (cfgByte c).extractLsb' 4 4 = ~~~c ∧ (cfgByte c).extractLsb' 0 4 = c := by revert c; decide
  obtain ⟨hhigh, hlow⟩ := halves
  refine ⟨hhigh, hlow, ?_, writesAt_of_listing rfl rfl⟩
  rw [hhigh, hlow]
  revert c; decide

/-- Settles O7: the two values of `bitPay`, and the CMD writes of R142, R143 and R146. -/
theorem bitPayload : Obligations.BitPayload :=
  ⟨rfl, rfl, fun _ => writesAt_of_listing rfl rfl, writesAt_of_listing rfl rfl,
    fun _ => writesAt_of_listing rfl rfl⟩

/-- Settles O11: `acceptedAt_of_request` at each row of R72, the configuration argument by `zext8_eq_append`. -/
theorem requestAccepted : Obligations.RequestAccepted := by
  refine ⟨acceptedAt_of_request rfl, fun c => ?_, fun p => acceptedAt_of_request (i := .setReadPointer p) rfl,
    acceptedAt_of_request rfl, acceptedAt_of_request rfl, acceptedAt_of_request rfl,
    fun n bytes => acceptedAt_of_request (i := .writeBytes n bytes) rfl,
    acceptedAt_of_request rfl, acceptedAt_of_request rfl, acceptedAt_of_request rfl,
    fun v => acceptedAt_of_request (i := .owWriteBit v) rfl, acceptedAt_of_request rfl,
    fun v => acceptedAt_of_request (i := .owWriteByte v) rfl,
    fun d => acceptedAt_of_request (i := .owTriplet d) rfl, acceptedAt_of_request rfl, acceptedAt_of_request rfl⟩
  rw [zext8_eq_append]
  exact acceptedAt_of_request (i := .writeConfig c) rfl

end Sys2Proof.Machine
end

section
/-! PROOFS. The register-I/O family of spec/40_register_io.md: O14 to O20 (the listings of R100 to R107), O21 (no
busy-wait, R108) and O38 (whole runs of `WRITE_CONFIG`, R101, R102). -/

namespace Sys2Proof.Machine

/-! ### No register operation waits or delays (R108) -/

section

variable {s t : State} {i : Instr} {l : Label} {us : Nat}

/-- A register operation is a request whose listing starts at L1 (R100 to R107). -/
theorem registerLayer_isRequest (h : registerLayer i = true) : isRequest i = true ∧ firstLabel i = .l1 := by
  cases i with
  | deviceReset | writeConfig c | setReadPointer p | regReadByte | readStatus | readDataRegister
  | writeBytes n bytes => exact ⟨rfl, rfl⟩
  | _ => cases h

/-- No register operation has a label of the busy-wait. -/
theorem registerLayer_listing_wait (h : registerLayer i = true) (site : WaitSite) (w : WaitLabel) :
    listing i (.wait site w) = none := by
  cases i with
  | deviceReset | writeConfig c | setReadPointer p | regReadByte | readStatus | readDataRegister
  | writeBytes n bytes => rfl
  | _ => cases h

/-- A write adds itself to the trace, or nothing, or itself and the response of its error; never a delay alone. -/
theorem trace_memWrite_ne_delay (bytes : List Byte) (next : Label) (h : OnErr) (begins : Bool) :
    (memWrite bytes next h begins s).trace ≠ s.trace ++ [.delay us] := by
  cases hc : completion s with
  | ok x => simp [memWrite_ok hc, movedOn]
  | pending => simp [memWrite_pending hc]
  | err e =>
    cases h with
    | raise => simp [memWrite_err hc, endedByTransport, endedWith]
    | discard l => simp [memWrite_err_discard hc, movedOn]

/-- As `trace_memWrite_ne_delay`, of a plain read. -/
theorem trace_memRead_ne_delay (tg : ReadTarget) (next : Byte → Label) (h : OnErr) :
    (memRead tg next h s).trace ≠ s.trace ++ [.delay us] := by
  cases hc : completion s with
  | ok b => cases tg <;> simp [memRead_ok hc, writeTarget, movedOn]
  | pending => simp [memRead_pending hc]
  | err e =>
    cases h with
    | raise => simp [memRead_err hc, endedByTransport, endedWith]
    | discard l => simp [memRead_err_discard hc, movedOn]

/-- As `trace_memWrite_ne_delay`, of the status read of a poll. -/
theorem trace_pollRead_ne_delay (k : Nat) (next : Byte → Label) :
    (pollRead k next s).trace ≠ s.trace ++ [.delay us] := by
  cases hc : completion s with
  | ok b => simp [pollRead_ok hc, movedOn]
  | pending => simp [pollRead_pending hc]
  | err e => simp [pollRead_err hc, endedByTransport, endedWith]

/-- A delay joins the trace only where the listing names one (R53, R61). -/
theorem perform_delay {a : Action} (h : perform a s = .next t) (ht : t.trace = s.trace ++ [.delay us]) :
    ∃ again timeout onward, a = .delay again timeout onward := by
  cases a with
  | delay again timeout onward => exact ⟨again, timeout, onward, rfl⟩
  | write bytes next h' begins => cases h; exact absurd ht (trace_memWrite_ne_delay _ _ _ _)
  | read tg next h' => cases h; exact absurd ht (trace_memRead_ne_delay _ _ _)
  | poll next =>
    obtain ⟨k, -, hk⟩ := withRegister_next h
    cases hk
    exact absurd ht (trace_pollRead_ne_delay _ _)
  | done v | fail e =>
    cases h
    simp [raiseError] at ht
  | judgeStat f | judgeData f =>
    obtain ⟨b, -, hb⟩ := withRegister_next h
    cases hb
    simp [conclude_eq_endedWith, endedWith] at ht

end

/-- Settles O21: no listing of the layer has a label of the wait (`registerLayer_listing_wait`), and a delay stands at
such a label only (`delay_flow`). -/
theorem registerLayerNeverWaits : Obligations.RegisterLayerNeverWaits := by
  intro i h
  obtain ⟨hr, hfirst⟩ := registerLayer_isRequest h
  refine ⟨fun s hp => ⟨_, exec_idle hr hp, congrArg some hfirst⟩,
    fun s site w hs => exec_unlisted hr hs (registerLayer_listing_wait h site w), fun s t hp hx us ht => ?_⟩
  rw [exec_request hr] at hx
  obtain ⟨hidle, -⟩ | ⟨-, l, a, -, hl, ha⟩ := runRequest_next hx
  · rw [hp] at hidle
    cases hidle
  · obtain ⟨again, timeout, onward, rfl⟩ := perform_delay ha ht
    obtain ⟨site, rfl, -⟩ := delay_flow hl
    rw [registerLayer_listing_wait h] at hl
    cases hl

/-! ### Whole runs of WRITE_CONFIG (R101, R102) -/

section

variable {s : State} {c : BitVec 4} {rs : List Request} {x b y : Byte} {rest : List Completion}

/-- The request word of `WRITE_CONFIG c` (R71, R73). -/
theorem decodeRequest_writeConfig (c : BitVec 4) :
    decodeRequest { word := 0x1#4 ++ (0x0#4 ++ c), wbuf := none } = .ok (.writeConfig c) := by
  rw [zext8_eq_append]
  exact (decodeRequest_operation (by decide)).trans (decodeConfig_zext8 c)

/-- `WRITE_CONFIG c` once `b` has been read back and compared with `c` (L2 of R101). -/
def readBackState (c : BitVec 4) (b : Byte) (rest : List Completion) (s : State) : State :=
  { acceptedState (.writeConfig c) s with
    env := rest, data := some b, step := some (if b = zext8 c then .l3 else .l4Write)
    trace := s.trace ++ [.memWrite s.addr [0xD2, ~~~c ++ c] none, .memRead s.addr (.byte b)] }

theorem readBackState_inProgress : inProgress (readBackState c b rest s) = .instr (.writeConfig c) :=
  inProgress_congr (acceptedState_inProgress (s := s) (decodeRequest_writeConfig c)) rfl rfl rfl

/-- The configuration write and the read-back, from the request on. -/
theorem run_writeConfig_readBack (hp : s.phase = .idle)
    (hq : s.requests = { word := 0x1#4 ++ (0x0#4 ++ c), wbuf := none } :: rs)
    (henv : s.env = .ok x :: .ok b :: rest) :
    runSteps 3 s = .next (readBackState c b rest s) := by
  have hd := decodeRequest_writeConfig c
  have hi := acceptedState_inProgress (s := s) hd
  rw [runSteps_succ (step_idle hp hq hd)]
  refine Eq.trans (runSteps_succ (step_write ⟨rfl, rfl⟩ hi rfl henv)) ?_
  refine Eq.trans (runSteps_succ (step_readData ⟨rfl, rfl⟩ (inProgress_congr hi rfl rfl rfl) rfl rfl)) ?_
  simp [runSteps, readBackState, acceptedState, bytesWcfg, cfgByte]

/-- The completion by which a read ends with a result (R52). -/
def readCompletion : ReadResult → Completion
  | .byte b => .ok b
  | .err e => .err e

/-- The read of the best-effort reset, and the error of L5, whatever the read ends with (R102). -/
theorem run_resetRead {r : ReadResult} (hs : RunsAt .l4Read s) (hi : inProgress s = .instr (.writeConfig c))
    (henv : s.env = readCompletion r :: rest) :
    runSteps 2 s = .next (endedWith { s with env := rest } [.memRead s.addr r] (responseErr .writeConfig)) := by
  have hrun := hs.1
  cases r with
  | byte b =>
    refine Eq.trans (runSteps_succ (step_readStat hs hi rfl henv)) ?_
    refine Eq.trans (runSteps_succ (step_fail ⟨hrun, rfl⟩ (inProgress_congr hi rfl rfl rfl) rfl)) ?_
    simp [runSteps, endedWith]
  | err e =>
    refine Eq.trans (runSteps_succ (step_readDiscarded hs hi rfl henv)) ?_
    refine Eq.trans (runSteps_succ (step_fail ⟨hrun, rfl⟩ (inProgress_congr hi rfl rfl rfl) rfl)) ?_
    simp [runSteps, endedWith]

/-- The best-effort reset whose write completes. -/
theorem run_reset {r : ReadResult} (hs : RunsAt .l4Write s) (hi : inProgress s = .instr (.writeConfig c))
    (henv : s.env = .ok y :: readCompletion r :: rest) :
    runSteps 3 s = .next (endedWith { s with env := rest }
      [.memWrite s.addr [0xF0] none, .memRead s.addr r] (responseErr .writeConfig)) := by
  have hrun := hs.1
  refine Eq.trans (runSteps_succ (step_write hs hi rfl henv)) ?_
  refine Eq.trans (run_resetRead ⟨hrun, rfl⟩ (inProgress_congr hi rfl rfl rfl) rfl) ?_
  simp [endedWith, bytesDrst]

/-- The best-effort reset whose write fails: it reads nothing. -/
theorem run_resetWriteFails {e : TErr} (hs : RunsAt .l4Write s) (hi : inProgress s = .instr (.writeConfig c))
    (henv : s.env = .err e :: rest) :
    runSteps 2 s = .next (endedWith { s with env := rest }
      [.memWrite s.addr [0xF0] (some e)] (responseErr .writeConfig)) := by
  have hrun := hs.1
  refine Eq.trans (runSteps_succ (step_writeDiscarded hs hi rfl henv)) ?_
  refine Eq.trans (runSteps_succ (step_fail ⟨hrun, rfl⟩ (inProgress_congr hi rfl rfl rfl) rfl)) ?_
  simp [runSteps, endedWith, bytesDrst]

/-- A request that ends from the read-back on ends the whole request, its port actions after those of the read-back. -/
theorem endedWith_readBackState {acts : List PortAction} {r : Response} {rest' : List Completion}
    (hq : s.requests = { word := 0x1#4 ++ (0x0#4 ++ c), wbuf := none } :: rs) :
    endedWith { readBackState c b rest s with env := rest' } acts r =
      endedWith { s with requests := rs, env := rest' }
        ([.memWrite s.addr [0xD2, ~~~c ++ c] none, .memRead s.addr (.byte b)] ++ acts) r := by
  simp [endedWith, readBackState, acceptedState, hq]

/-- After a mismatch the best-effort reset is next. -/
theorem readBackState_mismatch (h : b ≠ 0x0#4 ++ c) : RunsAt .l4Write (readBackState c b rest s) := by
  rw [zext8_eq_append] at h
  exact ⟨rfl, congrArg some (if_neg h)⟩

/-- After a match the return is next. -/
theorem readBackState_match (h : b = 0x0#4 ++ c) : RunsAt .l3 (readBackState c b rest s) := by
  rw [zext8_eq_append] at h
  exact ⟨rfl, congrArg some (if_pos h)⟩

/-- A mismatch whose reset completes its write: `WriteConfigError`, whatever the reset's read ends with. -/
theorem run_writeConfig_reset {r : ReadResult} (hp : s.phase = .idle)
    (hq : s.requests = { word := 0x1#4 ++ (0x0#4 ++ c), wbuf := none } :: rs) (hb : b ≠ 0x0#4 ++ c)
    (henv : s.env = .ok x :: .ok b :: .ok y :: readCompletion r :: rest) :
    runSteps 6 s = .next (endedWith { s with requests := rs, env := rest }
      [.memWrite s.addr [0xD2, ~~~c ++ c] none, .memRead s.addr (.byte b),
        .memWrite s.addr [0xF0] none, .memRead s.addr r] (responseErr .writeConfig)) := by
  refine Eq.trans (runSteps_add (n := 3) (run_writeConfig_readBack hp hq henv)) ?_
  rw [run_reset (readBackState_mismatch hb) readBackState_inProgress rfl, endedWith_readBackState hq]
  rfl

end

/-- Settles O38: `run_writeConfig_readBack`, then the return after a match, and after a mismatch the best-effort reset,
which ends with `WriteConfigError` however its transactions complete. -/
theorem writeConfigRuns : Obligations.WriteConfigRuns := by
  intro c s rs x b rest hp hq
  refine ⟨fun hb henv => ?_, fun y b' hb henv => run_writeConfig_reset (r := .byte b') hp hq hb henv,
    fun e hb henv => ?_, fun y e hb henv => run_writeConfig_reset (r := .err e) hp hq hb henv⟩
  · refine Eq.trans (runSteps_add (n := 1) (run_writeConfig_readBack hp hq henv)) ?_
    refine Eq.trans (runSteps_succ (step_done (readBackState_match hb) readBackState_inProgress rfl)) ?_
    exact congrArg _ (endedWith_readBackState (rest := rest) hq)
  · refine Eq.trans (runSteps_add (n := 2) (run_writeConfig_readBack hp hq henv)) ?_
    rw [run_resetWriteFails (readBackState_mismatch hb) readBackState_inProgress rfl, endedWith_readBackState hq]
    rfl

/-! ### The listings, label by label (R100 to R107) -/

section

variable {s : State} {i : Instr} {l l' : Label}

/-- A write whose error is discarded goes on at the label the listing gives for it (R102). -/
theorem exec_writeDiscarding {bytes : List Byte} {next : Label} (hs : RunsAt l s)
    (hl : listing i l = some (.write bytes next (.discard l') false)) :
    (∀ x, completion s = .ok x → exec i s = .next (movedOn s (.memWrite s.addr bytes none) next)) ∧
    (∀ e, completion s = .err e → exec i s = .next (movedOn s (.memWrite s.addr bytes (some e)) l')) ∧
    (completion s = .pending → exec i s = .next (consume s)) := by
  rw [exec_listed hs hl, perform]
  refine ⟨fun x hc => ?_, fun e hc => ?_, fun hc => ?_⟩
  · rw [memWrite_ok hc]; simp [movedOn]
  · rw [memWrite_err_discard hc]
  · rw [memWrite_pending hc]

/-- A read into `x[stat]` whose error is discarded goes on at the label the listing gives for it (R102). -/
theorem exec_readStatDiscarding {next : Byte → Label} (hs : RunsAt l s)
    (hl : listing i l = some (.read .stat next (.discard l'))) :
    (∀ b, completion s = .ok b →
      exec i s = .next { movedOn s (.memRead s.addr (.byte b)) (next b) with stat := some b }) ∧
    (∀ e, completion s = .err e → exec i s = .next (movedOn s (.memRead s.addr (.err e)) l')) ∧
    (completion s = .pending → exec i s = .next (consume s)) := by
  rw [exec_listed hs hl, perform]
  refine ⟨fun b hc => ?_, fun e hc => ?_, fun hc => ?_⟩
  · rw [memRead_ok hc, writeTarget]
  · rw [memRead_err_discard hc]
  · rw [memRead_pending hc]

end

/-- Bit 4 of the status set: L3 of R100 returns, whatever the other bits. -/
theorem verdictDeviceReset_set {b : Byte} (h : b.getLsbD 4 = true) : verdictDeviceReset b = .ret 0x00 := by
  rw [verdictDeviceReset, statusRst, h]; rfl

/-- Bit 4 of the status clear: L3 of R100 raises. -/
theorem verdictDeviceReset_clear {b : Byte} (h : b.getLsbD 4 = false) :
    verdictDeviceReset b = .raise .deviceReset := by
  rw [verdictDeviceReset, statusRst, h]; rfl

/-- Settles O14: the listing of R100, and `verdictDeviceReset` by bit 4. -/
theorem deviceResetListing : Obligations.DeviceResetListing :=
  ⟨rfl, acceptedAt_of_request rfl, writesAt_of_listing rfl rfl, readsStatAt_of_listing rfl rfl,
    fun _ h => returnsAt_of_judgeStat rfl rfl (verdictDeviceReset_set h),
    fun _ h => raisesAt_of_judgeStat rfl rfl (verdictDeviceReset_clear h) rfl⟩

/-- Settles O15: the listing of R101, its two discarded errors by `exec_writeDiscarding` and `exec_readStatDiscarding`;
the byte written and the byte compared differ in the high nibble, `~c` against 0. -/
theorem writeConfigListing : Obligations.WriteConfigListing := by
  intro c
  refine ⟨decodeRequest_writeConfig c, ?_, writesAt_of_listing rfl rfl, ?_, returnsAt_of_done rfl rfl,
    fun s hs => exec_writeDiscarding hs rfl, fun s hs => exec_readStatDiscarding hs rfl,
    raisesAt_of_fail (e := .writeConfig) rfl rfl rfl, ?_⟩
  · rw [zext8_eq_append]
    exact acceptedAt_of_request (i := .writeConfig c) rfl
  · rw [zext8_eq_append]
    exact readsDataAt_of_listing rfl rfl
  · revert c; decide

/-- Settles O16: the listing of R103. -/
theorem setReadPointerListing : Obligations.SetReadPointerListing := fun p =>
  ⟨decodeRequest_operation (by decide), acceptedAt_of_request (i := .setReadPointer p) rfl,
    writesAt_of_listing rfl rfl, returnsAt_of_done rfl rfl⟩

/-- Settles O17: the listing of R104. -/
theorem regReadByteListing : Obligations.RegReadByteListing :=
  ⟨rfl, acceptedAt_of_request rfl, readsDataAt_of_listing rfl rfl, fun _ => returnsAt_of_judgeData rfl rfl rfl⟩

/-- Settles O18: the listing of R105. -/
theorem readStatusListing : Obligations.ReadStatusListing :=
  ⟨rfl, acceptedAt_of_request rfl, writesAt_of_listing rfl rfl, readsStatAt_of_listing rfl rfl,
    fun _ => returnsAt_of_judgeStat rfl rfl rfl⟩

/-- Settles O19: the listing of R106. -/
theorem readDataRegisterListing : Obligations.ReadDataRegisterListing :=
  ⟨rfl, acceptedAt_of_request rfl, writesAt_of_listing rfl rfl, readsDataAt_of_listing rfl rfl,
    fun _ => returnsAt_of_judgeData rfl rfl rfl⟩

/-- Settles O20: the decoder takes a well-formed payload and refuses `n = 0`; the rest is the listing of R107. -/
theorem writeBytesListing : Obligations.WriteBytesListing := by
  refine ⟨fun n bytes hn hlen => ?_, fun wbuf => decodeRequest_writeBytes (n := 0x00), fun n bytes => ?_⟩
  · exact decodeRequest_writeBytes.trans (decodeWriteBytes_of_wellFormed (wellFormed_writeBytes.mpr ⟨hn, hlen⟩))
  · exact ⟨acceptedAt_of_request (i := .writeBytes n bytes) rfl, writesAt_of_listing rfl rfl,
      returnsAt_of_done rfl rfl⟩

end Sys2Proof.Machine
end

section
/-! PROOFS. The busy-wait family of spec/41_busy_wait.md: O22 (the listing of R130), O23 and O24 (whole waits), O25 and
O34 (requests whose wait is exhausted, R131, R132, R186), and O41 and O40 (the bound on a request's port actions,
R134, R148). -/

namespace Sys2Proof.Machine

/-! ### Whole waits (R130 to R132) -/

section

variable {s : State} {i : Instr} {site : WaitSite} {onward : Label} {ps : List (Byte × Byte × Byte)}
  {last : Byte × Byte × Byte} {rest : List Completion}

/-- `s` after the busy polls `ps`, at `step` with the count and the status byte given: a wait writes nothing else. -/
def afterBusyPolls (ps : List (Byte × Byte × Byte)) (rest : List Completion) (polls : Option Nat)
    (stat : Option Byte) (step : Option Label) (s : State) : State :=
  { s with
    env := rest, polls := polls, stat := stat, step := step
    trace := s.trace ++ ps.flatMap (pollTrace s.addr s.params.pollDelayUs) }

/-- A wait writes no request register, so its request stays in progress. -/
theorem afterBusyPolls_inProgress {polls : Option Nat} {stat : Option Byte} {step : Option Label}
    (hi : inProgress s = .instr i) : inProgress (afterBusyPolls ps rest polls stat step s) = .instr i :=
  inProgress_congr hi rfl rfl rfl

/-- After any number of busy polls below the bound, none included, the wait stands before its next poll. -/
theorem run_busyPolls_pollStart (hw : waitOf i site = some onward) (hi : inProgress s = .instr i)
    (hs : RunsAt (.wait site .l1) s) (hb : ∀ p ∈ ps, p.2.1.getLsbD 0 = true)
    (hlen : ps.length < s.params.pollLimit) (he : s.env = ps.flatMap pollAnswers ++ rest) :
    ∃ polls stat step,
      runSteps (3 * ps.length) s = .next (afterBusyPolls ps rest polls stat step s) ∧
      pollStart site ps.length (afterBusyPolls ps rest polls stat step s) := by
  by_cases hne : ps = []
  · subst hne
    replace he : s.env = rest := he
    have hsame : afterBusyPolls [] rest s.polls s.stat s.step s = s := by simp [afterBusyPolls, ← he]
    exact ⟨s.polls, s.stat, s.step, by rw [hsame]; rfl, by rw [hsame]; exact .inr ⟨hs, rfl⟩⟩
  · obtain ⟨st, hrun⟩ := run_busyPolls hw ps hne (k := 0) hi (.inr ⟨hs, rfl⟩) hb (by simpa using hlen) he
    rw [Nat.zero_add] at hrun
    exact ⟨_, st, _, hrun, .inl ⟨⟨hs.1, rfl⟩, rfl⟩⟩

/-- A wait that is busy at every poll up to its bound stands at the raise of `BusyTimeout` or goes on (R132). -/
theorem run_exhaustedWait (hw : waitOf i site = some onward) (hi : inProgress s = .instr i)
    (hs : RunsAt (.wait site .l1) s) (hb : ∀ p ∈ ps ++ [last], p.2.1.getLsbD 0 = true)
    (hlen : (ps ++ [last]).length = s.params.pollLimit)
    (he : s.env = (ps ++ [last]).flatMap pollAnswers ++ rest) :
    runSteps (3 * s.params.pollLimit) s = .next
      (afterBusyPolls (ps ++ [last]) rest (some s.params.pollLimit) (some last.2.1)
        (some (if s.params.busyTimeoutStrict = true then .wait site .timeout else onward)) s) := by
  have hn : ps.length + 1 = s.params.pollLimit := by simpa using hlen
  obtain ⟨polls, stat, step, hrun, hstart⟩ := run_busyPolls_pollStart (ps := ps) (rest := pollAnswers last ++ rest) hw
    hi hs (fun p hp => hb p (by simp [hp])) (by omega) (by simpa using he)
  have hlast := run_busyPoll hw (afterBusyPolls_inProgress hi) hstart (hb last (by simp)) rfl
  rw [show 3 * s.params.pollLimit = 3 * ps.length + 3 by omega, runSteps_add hrun, hlast]
  cases hstrict : s.params.busyTimeoutStrict <;> simp [afterBusyPolls, hn, hstrict]

end

/-- Settles O22: the listing of R130 at the direct site, whose return gives the status byte whole. -/
theorem busyWaitListing : Obligations.BusyWaitListing :=
  ⟨rfl, acceptedAt_of_request rfl, waitsAt_of_listing rfl (listing_wait rfl),
    fun _ => returnsAt_of_judgeStat rfl rfl rfl⟩

/-- Settles O23: the busy polls by `run_busyPolls_pollStart`, then one idle poll. -/
theorem waitEndsAtFirstIdlePoll : Obligations.WaitEndsAtFirstIdlePoll := by
  intro i site onward s ps x b rest hw hi hs hb hidle hlen he
  obtain ⟨polls, stat, step, hrun, hstart⟩ := run_busyPolls_pollStart hw hi hs hb hlen he
  rw [runSteps_add hrun]
  exact run_idlePoll hw (afterBusyPolls_inProgress hi) hstart hidle rfl

/-- Settles O24: the busy polls below the bound, and the one that reaches it (`run_exhaustedWait`). -/
theorem waitExhaustsItsBound : Obligations.WaitExhaustsItsBound :=
  fun _ _ _ _ _ _ _ => run_exhaustedWait

/-! ### Requests whose first wait is exhausted (R131, R132, R186) -/

section

variable {s : State} {i : Instr} {site : WaitSite} {onward : Label} {ps : List (Byte × Byte × Byte)}
  {last : Byte × Byte × Byte} {r : Request} {rs : List Request} {rest : List Completion}

/-- From the request to the end of its exhausted first wait. -/
theorem run_exhaustedFirstWait (hw : waitOf i site = some onward) (hfirst : firstLabel i = .wait site .l1)
    (hp : s.phase = .idle) (hq : s.requests = r :: rs) (hd : decodeRequest r = .ok i)
    (hb : ∀ p ∈ ps ++ [last], p.2.1.getLsbD 0 = true) (hlen : (ps ++ [last]).length = s.params.pollLimit)
    (he : s.env = (ps ++ [last]).flatMap pollAnswers ++ rest) :
    runSteps (3 * s.params.pollLimit + 1) s = .next
      (afterBusyPolls (ps ++ [last]) rest (some s.params.pollLimit) (some last.2.1)
        (some (if s.params.busyTimeoutStrict = true then .wait site .timeout else onward)) (acceptedState i s)) := by
  rw [runSteps_succ (step_idle hp hq hd)]
  exact run_exhaustedWait hw (acceptedState_inProgress hd) ⟨rfl, congrArg some hfirst⟩ hb hlen he

/-- In the strict variant a request whose first wait is exhausted ends with `BusyTimeout` (R132). -/
theorem run_busyTimeout (hw : waitOf i site = some onward) (hfirst : firstLabel i = .wait site .l1)
    (hstrict : s.params.busyTimeoutStrict = true)
    (hp : s.phase = .idle) (hq : s.requests = r :: rs) (hd : decodeRequest r = .ok i)
    (hb : ∀ p ∈ ps ++ [last], p.2.1.getLsbD 0 = true) (hlen : (ps ++ [last]).length = s.params.pollLimit)
    (he : s.env = (ps ++ [last]).flatMap pollAnswers ++ rest) :
    runSteps (3 * s.params.pollLimit + 2) s = .next
      (endedWith { s with requests := rs, env := rest }
        ((ps ++ [last]).flatMap (pollTrace s.addr s.params.pollDelayUs)) (responseErr .busyTimeout)) := by
  have hrun := run_exhaustedFirstWait hw hfirst hp hq hd hb hlen he
  have htimeout : listing i (.wait site .timeout) = some (.fail .busyTimeout) := listing_wait hw .timeout (by simp)
  rw [hstrict, if_pos rfl] at hrun
  refine Eq.trans (runSteps_add (n := 1) hrun) ?_
  refine Eq.trans (runSteps_succ (step_fail ⟨rfl, rfl⟩
    (afterBusyPolls_inProgress (acceptedState_inProgress hd)) htimeout)) ?_
  simp [runSteps, afterBusyPolls, endedWith, acceptedState, hq]

end

/-- Settles O25: the strict variant by `run_busyTimeout`; otherwise the exhausted wait goes on to its return. -/
theorem busyWaitOnBusyChip : Obligations.BusyWaitOnBusyChip := by
  intro s rs ps last rest hp hq hb hlen he
  have hd : decodeRequest { word := 0x700#12, wbuf := none } = .ok .busyWait := rfl
  cases hstrict : s.params.busyTimeoutStrict with
  | true => exact run_busyTimeout rfl rfl hstrict hp hq hd hb hlen he
  | false =>
    have hrun := run_exhaustedFirstWait rfl rfl hp hq hd hb hlen he
    rw [hstrict, if_neg (by simp)] at hrun
    refine Eq.trans (runSteps_add (n := 1) hrun) ?_
    refine Eq.trans (runSteps_succ (step_judgeStat ⟨rfl, rfl⟩
      (afterBusyPolls_inProgress (acceptedState_inProgress hd)) rfl rfl)) ?_
    simp [runSteps, afterBusyPolls, endedWith, acceptedState, hq, verdictResponse, responseOk]

/-- Settles O34: after the exhausted pre-wait the command is the next write, or, in the strict variant,
`run_busyTimeout` ends the request before it. -/
theorem commandAfterExhaustedPreWait : Obligations.CommandAfterExhaustedPreWait := by
  intro i frame s r rs ps last x rest hf hp hq hd hb hlen he
  obtain ⟨-, hfirst, hw, hcmd, -⟩ := commandFrame_facts hf
  refine ⟨fun hstrict => ?_, fun hstrict => run_busyTimeout hw hfirst hstrict hp hq hd hb hlen he⟩
  have hrun := run_exhaustedFirstWait hw hfirst hp hq hd hb hlen he
  rw [hstrict, if_neg (by simp)] at hrun
  exact ⟨_, (runSteps_add (n := 1) hrun).trans (runSteps_succ (step_write ⟨rfl, rfl⟩
    (afterBusyPolls_inProgress (acceptedState_inProgress hd)) hcmd rfl)), ⟨rfl, rfl⟩, rfl, rfl⟩

/-! ### The bound on a request's port actions (R134, R148) -/

section

variable {s t : State} {i : Instr} {l : Label} {a : Action} {m : Nat}

/-- The port actions left from `l` on, with the bound and the count of `s`. -/
def actionsLeftAt (i : Instr) (l : Label) (s : State) : Nat :=
  actionsLeft i s.params.pollLimit (s.polls.getD 0) l

theorem actionsLeftAt_wait {site : WaitSite} {w : WaitLabel} :
    actionsLeftAt i (.wait site w) s =
      waitLeft s.params.pollLimit (s.polls.getD 0) w + afterWait i s.params.pollLimit site :=
  actionsLeft_wait ..

/-- Where a transaction or a delay is due, at least one port action is left. -/
theorem actionsLeftAt_pos (hl : listing i l = some a) (hw : waitReady l s = true)
    (hn : 1 ≤ s.params.pollLimit) (hdraws : drawsCompletion a = true) : 0 < actionsLeftAt i l s := by
  have below (h : s.polls.any (· < s.params.pollLimit) = true) : s.polls.getD 0 < s.params.pollLimit := by
    cases hk : s.polls <;> simp_all
  cases a with
  | write bytes next h begins =>
    cases hwait : isWaitLabel l with
    | false =>
      obtain ⟨-, -, hlt, -⟩ := write_flow hwait hl
      exact Nat.zero_lt_of_lt (hlt _ _)
    | true =>
      cases l with
      | wait site w =>
        obtain ⟨onward, -, -, -, ⟨rfl, -⟩ | ⟨rfl, -⟩⟩ := waitWrite_flow hl
        · rw [actionsLeftAt_wait, waitLeft]; omega
        · have := below hw
          rw [actionsLeftAt_wait, waitLeft]; omega
      | _ => cases hwait
  | read tg next h =>
    obtain ⟨hgo, -⟩ := read_flow hl
    exact Nat.zero_lt_of_lt ((hgo 0).2 _ _)
  | poll next =>
    obtain ⟨site, onward, rfl, -, -⟩ := poll_flow hl
    have := below hw
    rw [actionsLeftAt_wait, waitLeft]; omega
  | delay again timeout onward =>
    obtain ⟨site, rfl, -⟩ := delay_flow hl
    rw [actionsLeftAt_wait, waitLeft]; omega
  | done | fail | judgeStat | judgeData => cases hdraws

/-- A state that has advanced stands at a label with fewer port actions left. -/
theorem actionsLeftAt_lt_of_advances (h : Advances i l s t) :
    ∃ l', RunsAt l' t ∧ inProgress t = .instr i ∧ actionsLeftAt i l' t < actionsLeftAt i l s := by
  obtain ⟨l', -, hs, hi, -, -, -, hpar, -, hlt⟩ := h
  exact ⟨l', hs, hi, by rwa [actionsLeftAt, hpar]⟩

/-- In a sound controller the listing in progress names an action at `x[step]` (R23). -/
theorem listing_of_inv (hinv : inv s = true) (hs : RunsAt l s) (hi : inProgress s = .instr i) :
    ∃ a, listing i l = some a := by
  obtain ⟨-, -, j, l', a, hj, hl', hl, -⟩ := (inv_run hs.1).mp hinv
  obtain rfl : i = j := by simpa [hi] using hj
  obtain rfl : l = l' := by simpa [hs.2] using hl'
  exact ⟨a, hl⟩

/-- The request in progress ends with one response, after at most `m` port actions that are none. -/
def EndsWithin (m : Nat) (s : State) : Prop :=
  ∃ k t acts resp, runSteps k s = .next t ∧ k ≤ m + 1 ∧ t.phase = .idle ∧ t.requests = s.requests ∧
    t.trace = s.trace ++ acts ++ [.respond resp] ∧ responses acts = [] ∧ acts.length ≤ m

theorem EndsWithin.mono {n : Nat} (h : EndsWithin m s) (hmn : m ≤ n) : EndsWithin n s := by
  obtain ⟨k, t, acts, resp, hrun, hk, hidle, hreq, htr, hr, hlen⟩ := h
  exact ⟨k, t, acts, resp, hrun, by omega, hidle, hreq, htr, hr, hlen.trans hmn⟩

/-- The step that ends the request, its own port actions before the response. -/
theorem endsWithin_of_response {acts : List PortAction} {resp : Response} (hstep : step s = .next t)
    (hidle : t.phase = .idle) (hreq : t.requests = s.requests)
    (htr : t.trace = s.trace ++ acts ++ [.respond resp]) (hr : responses acts = []) (hlen : acts.length ≤ m) :
    EndsWithin m s :=
  ⟨1, t, acts, resp, runSteps_succ hstep, by omega, hidle, hreq, htr, hr, hlen⟩

/-- A step of one port action, before a request that ends. -/
theorem endsWithin_succ {p : PortAction} (hstep : step s = .next t) (hreq : t.requests = s.requests)
    (htr : t.trace = s.trace ++ [p]) (hbus : isBusAction p = true) (ht : EndsWithin m t) :
    EndsWithin (m + 1) s := by
  obtain ⟨k, u, acts, resp, hrun, hk, hidle, hureq, hutr, hr, hlen⟩ := ht
  refine ⟨k + 1, u, p :: acts, resp, (runSteps_succ hstep).trans hrun, by omega, hidle, hureq.trans hreq, ?_, ?_, ?_⟩
  · simp [hutr, htr]
  · rw [← List.singleton_append, responses_append, responses_busAction hbus, hr]; rfl
  · simpa using hlen

/-- While `env` lists a completion, the next one is drawn from it (log 4). -/
theorem completion_mem (h : s.env ≠ []) : completion s ∈ s.env := by
  cases henv : s.env with
  | nil => exact absurd henv h
  | cons c rest => simp [completion_cons henv]

/-- One step of a sound controller whose environment has a completion for each port action left: the request ends, or
one port action advances it. -/
theorem endsWithin_or_advances (hinv : inv s = true) (hs : RunsAt l s)
    (hi : inProgress s = .instr i) (hlen : actionsLeftAt i l s ≤ s.env.length)
    (hpend : ∀ c ∈ s.env, c ≠ .pending) : EndsWithin (actionsLeftAt i l s) s ∨
    ∃ t p, step s = .next t ∧ Advances i l s t ∧ isBusAction p = true ∧ t.requests = s.requests ∧
      t.trace = s.trace ++ [p] ∧ t.env = s.env.tail := by
  obtain ⟨a, hl⟩ := listing_of_inv hinv hs hi
  obtain ⟨hn, hk, hr, hw⟩ := (inv_runsAt hs hi hl).mp hinv
  obtain ⟨t, ha⟩ := perform_ready hl hr hw
  have hstep : step s = .next t := (step_run hs hi hl).trans ha
  have hreq := (perform_frame ha).1
  obtain ⟨hdraws, hc, -⟩ | ⟨-, hc, p, l', hbus, -, ht⟩ | ⟨-, v, rfl⟩ | ⟨-, e, -, rfl⟩ |
    ⟨hdraws, p, e, -, hbus, -, rfl⟩ := perform_next ha
  · have hpos := actionsLeftAt_pos hl hw hn hdraws
    exact absurd hc (hpend _ (completion_mem (List.ne_nil_of_length_pos (by omega))))
  · refine .inr ⟨t, p, hstep, ?_, hbus, hreq, by rw [ht]; rfl, by rw [ht]; exact consume_env s⟩
    refine (perform_advances hs hi hl hw hn hk hc ha).resolve_left fun hidle => ?_
    rw [ht] at hidle
    simp [movedOn, hs.1] at hidle
  · exact .inl (endsWithin_of_response (acts := []) hstep rfl hreq rfl rfl (Nat.zero_le _))
  · exact .inl (endsWithin_of_response (acts := []) hstep rfl hreq rfl rfl (Nat.zero_le _))
  · have hpos := actionsLeftAt_pos hl hw hn hdraws
    exact .inl (endsWithin_of_response (acts := [p]) (resp := responseErr (.i2cCommunication e)) hstep rfl hreq
      (by simp [endedByTransport, endedWith, responseErr, errorCode, errorTerr]) (responses_busAction hbus) hpos)

/-- A sound controller whose environment completes the port actions left ends its request within them: the measure of
R134 falls with each. -/
theorem endsWithin_actionsLeftAt {s : State} {l : Label} (hinv : inv s = true) (hs : RunsAt l s)
    (hi : inProgress s = .instr i) (hlen : actionsLeftAt i l s ≤ s.env.length)
    (hpend : ∀ c ∈ s.env, c ≠ .pending) : EndsWithin (actionsLeftAt i l s) s := by
  obtain hend | ⟨t, p, hstep, hadv, hbus, hreq, htr, henv⟩ := endsWithin_or_advances hinv hs hi hlen hpend
  · exact hend
  · have ht := stepsKeepSoundness s t hinv hstep
    obtain ⟨l', hs', hi', hlt⟩ := actionsLeftAt_lt_of_advances hadv
    have htail : actionsLeftAt i l' t ≤ t.env.length := by rw [henv, List.length_tail]; omega
    exact (endsWithin_succ hstep hreq htr hbus (endsWithin_actionsLeftAt ht hs' hi' htail
      fun c hc => hpend c (List.mem_of_mem_tail (henv ▸ hc)))).mono hlt
termination_by actionsLeftAt i l s

end

/-- Settles O41: a sound controller performs its action, which ends the request or advances it. -/
theorem eachCompletionMakesProgress : Obligations.EachCompletionMakesProgress := by
  intro s i l hinv hs hi hc
  obtain ⟨a, hl⟩ := listing_of_inv hinv hs hi
  obtain ⟨hn, hk, hr, hw⟩ := (inv_runsAt hs hi hl).mp hinv
  obtain ⟨t, ht⟩ := perform_ready hl hr hw
  exact ⟨t, (step_run hs hi hl).trans ht,
    (perform_advances hs hi hl hw hn hk hc ht).imp_right actionsLeftAt_lt_of_advances⟩

/-- Settles O40: the acceptance, then `endsWithin_actionsLeftAt` from the first label on. -/
theorem everyRequestEnds : Obligations.EveryRequestEnds := by
  intro s i r rs hinv hp hq hd henv hpend
  have haccepted := inv_acceptedState (s := s) ((inv_idle hp).mp hinv).1 hd
  have hends : EndsWithin (requestBound i s.params.pollLimit) (acceptedState i s) :=
    endsWithin_actionsLeftAt haccepted ⟨rfl, rfl⟩ (acceptedState_inProgress hd) henv hpend
  obtain ⟨k, t, acts, resp, hrun, hk, hidle, hreq, htr, hr, hlen⟩ := hends
  refine ⟨k + 1, t, acts, resp, (runSteps_succ (step_idle hp hq hd)).trans hrun, by omega, hidle, ?_, htr, hr, hlen⟩
  simpa [acceptedState, hq] using hreq

end Sys2Proof.Machine
end

section
/-! PROOFS. The One-Wire family of spec/42_onewire.md: O26 (the common sequence, R140), O27 to O32 (the listings of
R141 to R146) and O33 (the status bits a primitive examines, R147). -/

namespace Sys2Proof.Machine

section

variable {s : State} {i : Instr} {frame : List Byte} {op : BitVec 4} {arg b : Byte}

/-! ### The common sequence (R140) -/

/-- An operation that runs a busy-wait is a request. -/
theorem isRequest_of_waitOf {site : WaitSite} {onward : Label} (h : waitOf i site = some onward) :
    isRequest i = true :=
  isRequest_of_listing (l := .wait site .timeout) (listing_wait h .timeout (by simp))

/-- At each of its wait sites an operation runs the whole wait of R130. -/
theorem waitsAt_of_waitOf {site : WaitSite} {onward : Label} (h : waitOf i site = some onward) :
    WaitsAt i site onward :=
  waitsAt_of_listing (isRequest_of_waitOf h) (listing_wait h)

/-- A decoded request is accepted with the operation code and argument of its word (R71). -/
theorem acceptedAt_of_decode (hd : decodeRequest { word := requestWord op arg, wbuf := none } = .ok i) :
    AcceptedAt i op arg none (firstLabel i) := by
  have h := acceptedAt_of_request (decodeRequest_isRequest hd)
  rwa [requestFields_eq_of_decode hd, requestOp_requestWord, requestArg_requestWord] at h

/-- A word that decodes to a primitive gives its acceptance, PRE and CMD. -/
theorem primitiveAt_of_decode (hf : commandFrame i = some frame)
    (hd : decodeRequest { word := requestWord op arg, wbuf := none } = .ok i) : PrimitiveAt i op arg frame := by
  obtain ⟨hr, hfirst, hpre, hcmd, -⟩ := commandFrame_facts hf
  have haccepted := acceptedAt_of_decode hd
  rw [hfirst] at haccepted
  exact ⟨hd, haccepted, waitsAt_of_waitOf hpre, writesAt_of_listing hr hcmd⟩

/-! ### What INT makes of the post-wait status (R141, R147) -/

/-- SD set: a short, whatever PPD (R141). -/
theorem verdictOwReset_shorted (h : b.getLsbD 2 = true) : verdictOwReset b = .raise .shortDetected := by
  rw [verdictOwReset, statusSd, h]; rfl

/-- SD clear: PPD is the result (R141). -/
theorem verdictOwReset_notShorted (h : b.getLsbD 2 = false) :
    verdictOwReset b = .ret (bitByte (b.getLsbD 1)) := by
  rw [verdictOwReset, statusSd, h]; rfl

/-- The response of a primitive is that of the examined bits of the status alone (R147). -/
theorem primitiveResponse_examined (i : Instr) (b : Byte) :
    primitiveResponse i (b &&& examinedBits i) = primitiveResponse i b := by
  cases i with
  | owReset =>
    simp [primitiveResponse, verdictOwReset, examinedBits, statusSd, statusPpd]
  | owReadBit =>
    simp [primitiveResponse, verdictOwReadBit, examinedBits, statusSbr]
  | owTriplet d =>
    simp [primitiveResponse, verdictOwTriplet, examinedBits, statusDir, statusTsb, statusSbr]
  | _ => rfl

/-- INT of every primitive but `OW_READ_BYTE` ends the request with its response to the status (R140). -/
theorem exec_primitive_int (hf : commandFrame i = some frame) (hne : i ≠ .owReadByte) (hs : RunsAt .int s)
    (hb : s.stat = some b) : exec i s = .next (endedWith s [] (primitiveResponse i b)) := by
  cases i with
  | owReset => exact exec_judgeStat (f := verdictOwReset) hs rfl hb
  | owReadBit => exact exec_judgeStat (f := verdictOwReadBit) hs rfl hb
  | owTriplet d => exact exec_judgeStat (f := verdictOwTriplet) hs rfl hb
  | owWriteBit v | owWriteByte v =>
    exact (exec_listed hs rfl).trans (congrArg _ (respond_eq_endedWith ..))
  | owReadByte => exact absurd rfl hne
  | _ => cases hf

/-- INT of `OW_READ_BYTE` reads `x[data]` only, and the response clears `x[stat]` (R144). -/
theorem exec_owReadByte_int_stat (hs : RunsAt .int s) (v v' : Option Byte) :
    exec .owReadByte { s with stat := v } = exec .owReadByte { s with stat := v' } := by
  have hint (v : Option Byte) : exec .owReadByte { s with stat := v } =
      perform (.judgeData .ret) { s with stat := v } := exec_listed hs rfl
  rw [hint, hint, perform, perform]
  cases s.data <;> rfl

end

/-- Settles O33: equal examined bits give equal responses (`primitiveResponse_examined`), and the end of the request
clears the status; `OW_READ_BYTE` does not read it. -/
theorem unexaminedBitsDoNotMatter : Obligations.UnexaminedBitsDoNotMatter := by
  intro i frame s b b' hf hs hbits
  by_cases hread : i = .owReadByte
  · subst hread
    exact exec_owReadByte_int_stat hs (some b) (some b')
  · have hresponse : primitiveResponse i b = primitiveResponse i b' := by
      rw [← primitiveResponse_examined i b, hbits, primitiveResponse_examined]
    rw [exec_primitive_int hf hread (s := { s with stat := some b }) hs rfl,
      exec_primitive_int hf hread (s := { s with stat := some b' }) hs rfl, hresponse]
    rfl

/-- Settles O26: `commandFrame_facts` gives the start, PRE and CMD; POST leads to INT, or in `OW_READ_BYTE` to the
fetch. -/
theorem primitiveCommonSequence : Obligations.PrimitiveCommonSequence := by
  intro i frame hf
  obtain ⟨hr, hfirst, hpre, hcmd, -⟩ := commandFrame_facts hf
  refine ⟨fun s hp => ⟨_, exec_idle hr hp, congrArg some hfirst⟩, waitsAt_of_waitOf hpre,
    writesAt_of_listing hr hcmd, fun hne => waitsAt_of_waitOf (waitOf_post hf hne), ?_⟩
  rintro rfl
  exact ⟨waitsAt_of_waitOf rfl, writesAt_of_listing rfl rfl, readsDataAt_of_listing rfl rfl⟩

/-- Settles O27: INT by SD, then PPD. -/
theorem owResetListing : Obligations.OwResetListing := by
  refine ⟨primitiveAt_of_decode rfl rfl, waitsAt_of_waitOf rfl,
    fun b hsd => raisesAt_of_judgeStat rfl rfl (verdictOwReset_shorted hsd) rfl,
    fun b hsd hppd => returnsAt_of_judgeStat rfl rfl ?_, fun b hsd hppd => returnsAt_of_judgeStat rfl rfl ?_⟩
  · rw [verdictOwReset_notShorted hsd, hppd]; rfl
  · rw [verdictOwReset_notShorted hsd, hppd]; rfl

/-- Settles O28: INT returns SBR. -/
theorem owReadBitListing : Obligations.OwReadBitListing :=
  ⟨primitiveAt_of_decode rfl rfl, waitsAt_of_waitOf rfl, fun _ => returnsAt_of_judgeStat rfl rfl rfl⟩

/-- Settles O29: both request words decode, and INT reads no register. -/
theorem owWriteBitListing : Obligations.OwWriteBitListing :=
  ⟨primitiveAt_of_decode rfl rfl, primitiveAt_of_decode rfl rfl,
    fun _ => ⟨waitsAt_of_waitOf rfl, returnsAt_of_done rfl rfl⟩⟩

/-- Settles O30: the post-wait leads to the fetch however it ended, and INT returns the byte fetched. -/
theorem owReadByteListing : Obligations.OwReadByteListing :=
  ⟨primitiveAt_of_decode rfl rfl, waitsAt_of_waitOf rfl, writesAt_of_listing rfl rfl,
    readsDataAt_of_listing rfl rfl, fun _ => returnsAt_of_judgeData rfl rfl rfl⟩

/-- Settles O31: the request word decodes for every `v` (`decodeRequest_operation`), and INT reads no register. -/
theorem owWriteByteListing : Obligations.OwWriteByteListing := fun _ =>
  ⟨primitiveAt_of_decode rfl (decodeRequest_operation (by decide)), waitsAt_of_waitOf rfl,
    returnsAt_of_done rfl rfl⟩

/-- Settles O32: both request words decode, and `verdictOwTriplet_eq_shift` gives INT for either direction. -/
theorem owTripletListing : Obligations.OwTripletListing :=
  ⟨primitiveAt_of_decode rfl rfl, primitiveAt_of_decode rfl rfl, fun _ => waitsAt_of_waitOf rfl,
    fun _ b => returnsAt_of_judgeStat rfl rfl (verdictOwTriplet_eq_shift b)⟩

end Sys2Proof.Machine
end

section
/-! PROOFS. The enumeration family of spec/43_enumeration.md: O35 (`SEARCH_ALL` and `SEARCH_ALARM`, R170, R171). -/

namespace Sys2Proof.Machine

/-- Settles O35: each word decodes, and L1 of each listing is `return` of the handle value, alarm flag clear or set. -/
theorem searchEntryPoints : Obligations.SearchEntryPoints :=
  ⟨rfl, acceptedAt_of_request rfl, returnsAt_of_done (v := handleValue false) rfl rfl,
    rfl, acceptedAt_of_request rfl, returnsAt_of_done (v := handleValue true) rfl rfl⟩

end Sys2Proof.Machine
end

section
/-! PROOFS. The exceptions family of spec/60_exceptions.md: O43 (a transport error, R181) and O44 (the errors of each
operation, R183, R186). -/

namespace Sys2Proof.Machine

section

variable {s t : State} {i : Instr} {l : Label} {a : Action} {f : Byte → Verdict} {b : Byte} {e : OpError}

/-! ### What the listings do with a transport error (R102, R181) -/

/-- An action at a label of a wait (R130): the return of the direct request, the raise of L6, or a transaction or
delay that is no plain read. -/
theorem listing_wait_action {site : WaitSite} {w : WaitLabel} (hl : listing i (.wait site w) = some a) :
    a = .judgeStat .ret ∨ (w = .timeout ∧ a = .fail .busyTimeout) ∨
      (drawsCompletion a = true ∧ ∀ tg next h, a ≠ .read tg next h) := by
  obtain ⟨onward, -, ⟨-, rfl⟩ | ⟨hw, ha⟩⟩ := listing_wait_some hl
  · exact .inl rfl
  · cases w with
    | ret => exact absurd rfl hw
    | timeout => cases ha; exact .inr (.inl ⟨rfl, rfl⟩)
    | l1 | select | read | delay => cases ha; exact .inr (.inr ⟨rfl, nofun⟩)

/-- The one write whose error is discarded is the best-effort reset's (R102). -/
theorem write_onErr {bytes : List Byte} {next : Label} {h : OnErr} {begins : Bool}
    (hl : listing i l = some (.write bytes next h begins)) :
    h = if l = .l4Write then .discard .l5 else .raise := by
  cases l with
  | wait site w =>
    obtain ⟨onward, -, -, hraise, -⟩ := waitWrite_flow hl
    exact hraise
  | _ => cases i <;> cases hl <;> rfl

/-- The one read whose error is discarded is the best-effort reset's (R102). -/
theorem read_onErr {tg : ReadTarget} {next : Byte → Label} {h : OnErr}
    (hl : listing i l = some (.read tg next h)) : h = if l = .l4Read then .discard .l5 else .raise := by
  cases l with
  | wait site w =>
    obtain ha | ⟨-, ha⟩ | ⟨-, ha⟩ := listing_wait_action hl
    · cases ha
    · cases ha
    · exact absurd rfl (ha tg next h)
  | _ => cases i <;> cases hl <;> rfl

/-! ### The errors of each operation (R183) -/

/-- The error responses of a performed action: of an error it raises itself, or of its failed transaction. -/
theorem perform_errorResponse {acts : List PortAction} {r : Response} (h : perform a s = .next t)
    (htr : t.trace = s.trace ++ acts) (hr : r ∈ responses acts) (hk : r.kind = .err) :
    (∃ e, raisesError a s e ∧ r = responseErr e) ∨
      (drawsCompletion a = true ∧ ∃ x, r = responseErr (.i2cCommunication x)) := by
  obtain ⟨-, -, rfl⟩ | ⟨-, -, p, l, hbus, -, ht⟩ | ⟨-, v, rfl⟩ | ⟨-, e, he, rfl⟩ | ⟨hd, p, x, -, hbus, -, rfl⟩ :=
    perform_next h
  · obtain rfl : acts = [] := by simpa using htr
    cases hr
  · obtain rfl : [p] = acts := by rw [ht] at htr; simpa [movedOn] using htr
    simp [responses_busAction hbus] at hr
  · obtain rfl : [.respond (responseOk v)] = acts := by simpa [endedWith] using htr
    obtain rfl : r = responseOk v := by simpa [responses] using hr
    cases hk
  · obtain rfl : [.respond (responseErr e)] = acts := by simpa [endedWith] using htr
    exact .inl ⟨e, he, by simpa [responses] using hr⟩
  · obtain rfl : [p] ++ [.respond (responseErr (.i2cCommunication x))] = acts := by
      simpa [endedByTransport, endedWith, responseErr, errorCode, errorTerr] using htr
    rw [responses_append, responses_busAction hbus] at hr
    exact .inr ⟨hd, x, by simpa [responses] using hr⟩

/-- The label of `raise E` in a listing: L5 of R101, or L6 of R130 in a wait (R186). -/
theorem fail_flow (hl : listing i l = some (.fail e)) :
    (e = .writeConfig ∧ ∃ c, i = .writeConfig c) ∨
      (e = .busyTimeout ∧ ∃ site onward, l = .wait site .timeout ∧ waitOf i site = some onward) := by
  cases l with
  | wait site w =>
    obtain ⟨onward, ho, -⟩ := listing_wait_some hl
    obtain ha | ⟨rfl, ha⟩ | ⟨ha, -⟩ := listing_wait_action hl <;> cases ha
    exact .inr ⟨rfl, site, onward, rfl, ho⟩
  | _ =>
    cases i with
    | writeConfig c => cases hl <;> exact .inl ⟨rfl, c, rfl⟩
    | _ => cases hl

theorem verdictDeviceReset_raise (h : verdictDeviceReset b = .raise e) : e = .deviceReset := by
  unfold verdictDeviceReset at h
  split at h <;> cases h
  rfl

theorem verdictOwReset_raise (h : verdictOwReset b = .raise e) : e = .shortDetected := by
  unfold verdictOwReset at h
  split at h <;> cases h
  rfl

/-- The interpretations of a status byte that can raise are those of R100 and R141. -/
theorem judgeStat_raise (hl : listing i l = some (.judgeStat f)) (hf : f b = .raise e) :
    (i = .deviceReset ∧ e = .deviceReset) ∨ (i = .owReset ∧ e = .shortDetected) := by
  cases l with
  | wait site w =>
    obtain ha | ⟨-, ha⟩ | ⟨ha, -⟩ := listing_wait_action hl <;> cases ha
    cases hf
  | _ =>
    cases i with
    | deviceReset => cases hl <;> exact .inl ⟨rfl, verdictDeviceReset_raise hf⟩
    | owReset => cases hl <;> exact .inr ⟨rfl, verdictOwReset_raise hf⟩
    | _ => cases hl <;> cases hf

/-- No interpretation of a data byte raises. -/
theorem judgeData_ne_raise (hl : listing i l = some (.judgeData f)) : f b ≠ .raise e := by
  cases l with
  | wait site w => obtain ha | ⟨-, ha⟩ | ⟨ha, -⟩ := listing_wait_action hl <;> cases ha
  | _ => cases i <;> cases hl <;> nofun

/-- An operation that performs a transaction or a delay has `I2CCommunicationError` in its row. -/
theorem errorAllowed_transport {strict : Bool} (hl : listing i l = some a) (hd : drawsCompletion a = true) :
    errorAllowed i strict 2 = true := by
  cases i with
  | searchAll | searchAlarm => cases l <;> cases hl; cases hd
  | frameDrst | frameWcfg | frame1wrs | frame1wsb | frame1wrb | frame1wwb | frame1wt | frameSrp => cases hl
  | _ => rfl

/-- An operation that runs a busy-wait has `BusyTimeout` in its row, in the strict variant. -/
theorem errorAllowed_busyTimeout {site : WaitSite} {onward : Label} (h : waitOf i site = some onward) :
    errorAllowed i true 5 = true := by
  cases i with
  | busyWait | owReset | owReadBit | owWriteBit | owReadByte | owWriteByte | owTriplet => rfl
  | _ => cases site <;> cases h

/-- An error that an action of a listing raises itself is in the row of the operation; a wait stands at its raise in
the strict variant only. -/
theorem errorAllowed_of_raisesError (hl : listing i l = some a) (hw : waitReady l s = true)
    (h : raisesError a s e) : errorAllowed i s.params.busyTimeoutStrict (errorCode e) = true := by
  obtain rfl | ⟨f, b, rfl, -, hf⟩ | ⟨f, b, rfl, -, hf⟩ := h
  · obtain ⟨rfl, c, rfl⟩ | ⟨rfl, site, onward, rfl, ho⟩ := fail_flow hl
    · rfl
    · have hstrict : s.params.busyTimeoutStrict = true := hw
      rw [hstrict]
      exact errorAllowed_busyTimeout ho
  · obtain ⟨rfl, rfl⟩ | ⟨rfl, rfl⟩ := judgeStat_raise hl hf <;> rfl
  · exact absurd hf (judgeData_ne_raise hl)

end

/-- Settles O43: the listings discard the error at the two labels of R102 only (`write_onErr`, `read_onErr`), and a poll
always raises it. -/
theorem transportErrorEndsRequest : Obligations.TransportErrorEndsRequest := by
  intro i l s e hs hc
  refine ⟨fun bytes next h b hne hl => ?_, fun tg next h hne hl => ?_, fun next k hk hl => ?_,
    fun bytes next h b heq hl => ?_, fun tg next h heq hl => ?_⟩
  · obtain rfl := write_onErr hl
    rw [exec_listed hs hl, perform, if_neg hne, memWrite_err hc]
  · obtain rfl := read_onErr hl
    rw [exec_listed hs hl, perform, if_neg hne, memRead_err hc]
  · rw [exec_listed hs hl, perform, hk, withRegister, pollRead_err hc]
  · obtain rfl := write_onErr hl
    rw [exec_listed hs hl, perform, if_pos heq, memWrite_err_discard hc]
  · obtain rfl := read_onErr hl
    rw [exec_listed hs hl, perform, if_pos heq, memRead_err_discard hc]

/-- Settles O44: the error is one its action raises itself, or that of a failed transaction; a sound controller stands
at the raise of L6 in the strict variant only. -/
theorem errorsPerOperation : Obligations.ErrorsPerOperation := by
  intro s t i acts r hinv hp hi hst htr hr hk
  obtain ⟨hidle, -⟩ | ⟨hidle, -⟩ | ⟨-, j, l, a, hj, hs, hl, ha⟩ := step_next hst
  · rw [hp] at hidle; cases hidle
  · rw [hp] at hidle; cases hidle
  · obtain rfl : i = j := by simpa [hi] using hj
    obtain ⟨-, -, -, hw⟩ := (inv_runsAt ⟨hp, hs⟩ hi hl).mp hinv
    obtain ⟨e, he, rfl⟩ | ⟨hd, x, rfl⟩ := perform_errorResponse ha htr hr hk
    · exact errorAllowed_of_raisesError hl hw he
    · exact errorAllowed_transport hl hd

end Sys2Proof.Machine
end
